-- ==== Sys2Proof/Word.lean ====
section
/-! DEFINITION. The machine's one kind of value, the byte, its two arithmetic functions
(00_scope.md R4), and the three bytes of an instruction (30_encoding.md R33). -/

namespace Sys2Proof

/-- Every value of the machine: a register, the pc, a memory cell, an address, an operand (R4). -/
abbrev Byte := BitVec 8

/-- `add8(a, b) = (a + b) mod 256` (R4). -/
def add8 (a b : Byte) : Byte := a + b

/-- `sub8(a, b) = (a - b) mod 256`, in 0 to 255 (R4). -/
def sub8 (a b : Byte) : Byte := a - b

/-- The three bytes of an instruction in address order (R33): the opcode at the lowest address. -/
structure InstrBytes where
  op : Byte
  b1 : Byte
  b2 : Byte
  deriving DecidableEq, Repr

end Sys2Proof
end

