-- ==== Sys2Proof/Syntax.lean ====
section
/-! DEFINITION. The nine instructions of 30_encoding.md R36 with the operands that R41's `decode`
gives them. Operands are whole bytes as they stand in memory (R35): a register index may be out of
range and a Store's address too high here, and it is the instruction's meaning that faults on them
(R41: decoding never checks an operand). The ignored bytes of Jump and Halt are dropped (R41). -/

namespace Sys2Proof

inductive Instr where
  /-- Load (R50): `x[reg] <- M[addr]`. -/
  | load (reg addr : Byte)
  /-- Store (R51): `M[addr] <- x[reg]`, `addr` at most 0x07. -/
  | store (reg addr : Byte)
  /-- Add (R53): `x[regA] <- x[regA] + x[regB]`. -/
  | add (regA regB : Byte)
  /-- Sub (R54): `x[regA] <- x[regA] - x[regB]`. -/
  | sub (regA regB : Byte)
  /-- Addi (R55): `x[reg] <- x[reg] + imm`. -/
  | addi (reg imm : Byte)
  /-- Subi (R56): `x[reg] <- x[reg] - imm`. -/
  | subi (reg imm : Byte)
  /-- Jump (R57): `pc <- addr`. -/
  | jump (addr : Byte)
  /-- Beqz (R58): `pc <- pc + offset` when `x[reg] = 0`, and then `pc <- pc + 3`. -/
  | beqz (reg offset : Byte)
  /-- Halt (R60). -/
  | halt
  deriving DecidableEq, Repr

/-- The instruction's name in the opcode map (R36). -/
def Instr.mnemonic : Instr → String
  | .load _ _ => "Load"
  | .store _ _ => "Store"
  | .add _ _ => "Add"
  | .sub _ _ => "Sub"
  | .addi _ _ => "Addi"
  | .subi _ _ => "Subi"
  | .jump _ => "Jump"
  | .beqz _ _ => "Beqz"
  | .halt => "Halt"

end Sys2Proof
end

