-- ==== Sys2Proof/Decode.lean ====
section
/-! DEFINITION. The total decoder of 30_encoding.md R41, the encoder written from the same table
(R36, R34; ignored bytes 0x00, R40), and the bytes of a 24-bit table word (R33). -/

namespace Sys2Proof

/-! The nine opcode bytes of R36. UNVERIFIED literals, unsafe (log 16). -/

def opLoad  : Byte := 0x01#8
def opStore : Byte := 0x02#8
def opAdd   : Byte := 0x03#8
def opSub   : Byte := 0x04#8
def opAddi  : Byte := 0x05#8
def opSubi  : Byte := 0x06#8
def opJump  : Byte := 0x07#8
def opBeqz  : Byte := 0x08#8
def opHalt  : Byte := 0xFF#8

/-- What three bytes decode to (R41): an instruction, or no instruction and the opcode byte that
names none (R38). -/
inductive Decoded where
  | instr (i : Instr)
  | unrecognized (op : Byte)
  deriving DecidableEq, Repr

/-- R41: total, on the opcode byte alone (R44), checking no operand. The ignored bytes of Jump, Halt
and an unrecognized opcode may hold anything (R37; log 11). -/
def decode (op b1 b2 : Byte) : Decoded :=
  if op = opLoad then .instr (.load b1 b2)
  else if op = opStore then .instr (.store b1 b2)
  else if op = opAdd then .instr (.add b1 b2)
  else if op = opSub then .instr (.sub b1 b2)
  else if op = opAddi then .instr (.addi b1 b2)
  else if op = opSubi then .instr (.subi b1 b2)
  else if op = opJump then .instr (.jump b1)
  else if op = opBeqz then .instr (.beqz b1 b2)
  else if op = opHalt then .instr .halt
  else .unrecognized op

/-- The instruction three bytes decode to, if there is one. -/
def decodeInstr (w : InstrBytes) : Option Instr :=
  match decode w.op w.b1 w.b2 with
  | .instr i => some i
  | .unrecognized _ => none

/-- The three bytes of an instruction (R34, R36), ignored bytes 0x00 (R40). -/
def encode : Instr → InstrBytes
  | .load r a => ⟨opLoad, r, a⟩
  | .store r a => ⟨opStore, r, a⟩
  | .add a b => ⟨opAdd, a, b⟩
  | .sub a b => ⟨opSub, a, b⟩
  | .addi r v => ⟨opAddi, r, v⟩
  | .subi r v => ⟨opSubi, r, v⟩
  | .jump a => ⟨opJump, a, 0x00#8⟩
  | .beqz r f => ⟨opBeqz, r, f⟩
  | .halt => ⟨opHalt, 0x00#8, 0x00#8⟩

/-- The bytes, in address order, of the table word `W = op ‖ b1 ‖ b2`, `W[23:16] = op`,
`W[15:8] = b1`, `W[7:0] = b2` (R33, opcode_table.json; log 12). Bits from `nbits` up are 0. -/
def tableBytes (nbits w : Nat) : InstrBytes :=
  let v := w % 2 ^ nbits
  ⟨BitVec.ofNat 8 (v / 65536), BitVec.ofNat 8 (v / 256), BitVec.ofNat 8 v⟩

/-- The instruction the decoder reads from a table word, none where the opcode is unrecognized. -/
def decodeTableWord (nbits w : Nat) : Option Instr := decodeInstr (tableBytes nbits w)

end Sys2Proof
end

