-- ==== Sys2Proof/Config.lean ====
section
/-! DEFINITION. The fixed constants of 00_scope.md R3 (named, so that an audit of the literals can
change one in one place: 93_implementation_defined.md U8), and what a memory cell reads as that the
memory list does not hold. The spec leaves no parameter open, so there is no free value here. -/

namespace Sys2Proof.Config

/-- `MEM_SIZE` (R3, R20): the number of memory cells. -/
def memSize : Nat := 256

/-- `NREG` (R3, R12): the number of general registers. Which index names which register is
`Machine.regOfIndex`. UNVERIFIED literal, unsafe (log 16); the size 2 is decision D2 (log 6). -/
def nreg : Nat := 2

/-- `RESET_PC` (R3, R74): the pc after reset. UNVERIFIED literal, unsafe (log 16). -/
def resetPc : Byte := 0x08#8

/-- `DATA_TOP` (R3, R21): the highest address a Store may write. UNVERIFIED literal, unsafe (log 16). -/
def dataTop : Byte := 0x07#8

/-- `ILEN` (R3, R32): the length of every instruction in bytes. -/
def ilen : Byte := 0x03#8

/-- What a memory cell that the memory list does not hold reads as. The spec gives no contents to a
cell the host never wrote (R19, U6). DESIGN CHOICE, unsafe (log 1): 0x00. As a way of writing images
down it loses nothing: every image of 256 bytes is exactly one canonical list. -/
def unlistedByte : Byte := 0x00#8

end Sys2Proof.Config
end

