-- ==== Sys2Proof/Machine/State.lean ====
section
/-! DEFINITION. The whole state of the machine (10_state.md R10, "and nothing else"), why a step can
be absent, and the state after reset (R19). -/

namespace Sys2Proof.Machine

/-- The two general registers (R11). Which index byte names which is `regOfIndex`. -/
inductive Reg where
  | x0
  | x1
  deriving DecidableEq, Repr

/-- The run state (R15). -/
inductive RunState where
  | running
  | halted
  | faulted
  deriving DecidableEq, Repr

/-- The three kinds of fault (R16, R62). -/
inductive FaultKind where
  /-- A Store above 0x07 (R63); detail: the address. -/
  | invalidMemoryAccess
  /-- An opcode byte that names no instruction (R64); detail: the opcode byte. -/
  | unrecognizedOpcode
  /-- A register index of 2 or more (R65); detail: the first such index. -/
  | indexFault
  deriving DecidableEq, Repr

/-- The fault record's pair (R16). -/
structure FaultRecord where
  kind : FaultKind
  detail : Byte
  deriving DecidableEq, Repr

/-- Memory: the cells that do not read as `Config.unlistedByte`, by strictly rising address. The
form is `Memory.wf`; every operation is in Machine/Ops.lean. -/
abbrev Memory := List Host.Cell

/-- The state of R10. -/
structure State where
  /-- General register 0 (R11). -/
  x0 : Byte
  /-- General register 1 (R11). -/
  x1 : Byte
  /-- The program counter (R13), reached by no register index (R14). -/
  pc : Byte
  /-- The 256 memory cells (R20). -/
  mem : Memory
  /-- The run state (R15). -/
  runState : RunState
  /-- The fault record (R16), empty unless the run state is Faulted. -/
  fault : Option FaultRecord
  deriving DecidableEq, Repr

/-- Why `step` answers no next state. The machine's own three faults are NOT here: they are taken,
as a next state whose run state is Faulted (R69; log 5). -/
inductive Fault where
  /-- Raised by `step` alone, in run state Halted, where R42 says no step exists. Safe (log 4). -/
  | noStepHalted
  /-- Raised by `step` alone, in run state Faulted, where R42 says no step exists. Safe (log 4). -/
  | noStepFaulted
  deriving DecidableEq, Repr

/-- Why an instruction is refused. -/
inductive Refusal where
  /-- An instruction without a meaning, named as the opcode table spells it. Nothing raises it: all
  nine have their meaning. Safe. -/
  | notModelled (mnemonic : String)
  deriving DecidableEq, Repr

/-- What a meaning and a step answer. -/
abbrev Result := Host.Outcome State Fault Refusal

/-- The machine right after reset (R19, R73), with nothing placed in memory. `x1` is 0x00 by the
spec's decision D3 (DESIGN CHOICE of the spec, unsafe, log 2); the memory's contents are not a reset
value (log 1), and `State.applyReset` is the reset of any state, which keeps its memory. -/
def State.reset : State where
  x0 := 0x00#8
  x1 := 0x00#8
  pc := Config.resetPc
  mem := []
  runState := .running
  fault := none

end Sys2Proof.Machine
end

