-- ==== Sys2Proof/Machine/Ops.lean ====
section
/-! DEFINITION. The named operations over memory, registers, pc and status: the pseudocode primitives
of 00_scope.md R5, instruction fetch (40_cycle.md R43), the generic epilogue (R46), taking a fault
(60_exceptions.md R69) and reset (70_reset_and_hazards.md R73). There is no return from a fault: no
instruction has one (60_exceptions.md R70), and `State.applyReset` is the only way on. -/

namespace Sys2Proof.Machine

/-! ### Memory (20_memory.md) -/

/-- The canonical form: addresses strictly rising, each below 256 (R20), no cell listed that holds
what an unlisted one reads as. -/
abbrev Memory.wf (m : Memory) : Prop :=
  m.Pairwise (fun c d => c.1 < d.1) ∧
    ∀ c ∈ m, c.1 < Config.memSize ∧ c.2 ≠ Config.unlistedByte

/-- The byte at address `n` of a memory list. -/
def Memory.lookup : Memory → Nat → Byte
  | [], _ => Config.unlistedByte
  | (k, b) :: m, n => if k = n then b else Memory.lookup m n

/-- A cell before the list `m`, or `m` alone when the cell reads as an unlisted one does. -/
def Memory.consCell (n : Nat) (v : Byte) (m : Memory) : Memory :=
  if v = Config.unlistedByte then m else (n, v) :: m

/-- The list with address `n` holding `v`, in canonical form. -/
def Memory.insert : Memory → Nat → Byte → Memory
  | [], n, v => Memory.consCell n v []
  | (k, b) :: m, n, v =>
    if n < k then Memory.consCell n v ((k, b) :: m)
    else if n = k then Memory.consCell n v m
    else (k, b) :: Memory.insert m n v

/-- `MemRead(a, 1)` (R5): total, every byte is an address (R20, R26). -/
def Memory.read (m : Memory) (a : Byte) : Byte := m.lookup a.toNat

/-- `MemWrite(a, 1, v)` (R5). -/
def Memory.write (m : Memory) (a v : Byte) : Memory := m.insert a.toNat v

/-- The byte in cell `a` (R5). -/
def State.readByte (s : State) (a : Byte) : Byte := s.mem.read a

/-- Cell `a` takes byte `v` (R5). Unchecked: Store's own check is `withDataAddr` (R51). -/
def State.writeByte (s : State) (a v : Byte) : State := { s with mem := s.mem.write a v }

/-! ### Registers and pc (10_state.md R11, R13) -/

/-- `x[i]` (R5). -/
def State.getReg (s : State) : Reg → Byte
  | .x0 => s.x0
  | .x1 => s.x1

/-- `x[i] <- v` (R5). -/
def State.setReg (s : State) (r : Reg) (v : Byte) : State :=
  match r with
  | .x0 => { s with x0 := v }
  | .x1 => { s with x1 := v }

/-- `pc <- t` (R5). -/
def State.setPc (s : State) (t : Byte) : State := { s with pc := t }

/-- The generic epilogue `pc <- add8(pc, 3)` (R46). -/
def State.advance (s : State) : State := s.setPc (add8 s.pc Config.ilen)

/-! ### Run state and fault record (10_state.md R15, R16) -/

/-- `raise F(d)` (R5), fault entry (R69): the run state becomes Faulted, the record is written, and
nothing else changes; the pc stays at the faulting instruction (D10; log 10). -/
def State.takeFault (s : State) (k : FaultKind) (d : Byte) : State :=
  { s with runState := .faulted, fault := some ⟨k, d⟩ }

/-- `halt` (R5): only the run state changes (R60); the pc stays (D9; log 10). -/
def State.enterHalted (s : State) : State := { s with runState := .halted }

/-- Reset (R73) of any state: everything but memory gets its reset value. -/
def State.applyReset (s : State) : State :=
  { x0 := 0x00#8, x1 := 0x00#8, pc := Config.resetPc, mem := s.mem,
    runState := .running, fault := none }

/-! ### Fetch (40_cycle.md R43) -/

/-- The three bytes at pc, pc+1 and pc+2, modulo 256 (R26; D4, log 7), from any address (R22; D5,
log 8), read from the memory as it stands (R30). -/
def State.fetch (s : State) : InstrBytes where
  op := s.readByte s.pc
  b1 := s.readByte (add8 s.pc 0x01#8)
  b2 := s.readByte (add8 s.pc 0x02#8)

/-- The three bytes of an instruction placed where the next fetch reads them. -/
def State.placeBytes (s : State) (w : InstrBytes) : State :=
  ((s.writeByte s.pc w.op).writeByte (add8 s.pc 0x01#8) w.b1).writeByte (add8 s.pc 0x02#8) w.b2

end Sys2Proof.Machine
end

