-- ==== Sys2Proof/Machine/Operands.lean ====
section
/-! DEFINITION. The operand forms of 30_encoding.md R34, R35: a register index (R12, 40_cycle.md
R45), two register indices in order, and Store's address (41_memory_move.md R51). Immediates,
offsets, Load addresses and Jump targets are the operand byte itself and need no form here (R35). A
check that fails takes its fault; it stands before every read and write of the instruction (D21;
log 17), in the order index `b1`, index `b2`, address (R48; D6, log 9). -/

namespace Sys2Proof.Machine

/-- `RegValid(i) = (i < 2)` (R12), on the whole byte, unmasked. -/
def regValid (i : Byte) : Bool := i.toNat < Config.nreg

/-- The register a valid index names: 0 is `x[0]`, 1 is `x[1]` (R11, R12; D2, log 6). -/
def regOfIndex (i : Byte) : Option Reg :=
  if regValid i then (if i = 0x00#8 then some .x0 else some .x1) else none

/-- The index byte that names a register (R11). -/
def Reg.index : Reg → Byte
  | .x0 => 0x00#8
  | .x1 => 0x01#8

/-- One register operand (R45): go on with the register, or take `IndexFault(i)` (R65; the detail
byte is D8, log 9). -/
def withReg (i : Byte) (s : State) (k : Reg → Result) : Result :=
  match regOfIndex i with
  | some r => k r
  | none => .next (s.takeFault .indexFault i)

/-- Two register operands, `i` checked before `j` (R45). -/
def withRegs (i j : Byte) (s : State) (k : Reg → Reg → Result) : Result :=
  withReg i s fun r => withReg j s fun q => k r q

/-- An address a Store may write: at most 0x07, unsigned, on the whole byte (R51, R22). -/
def storeAddrOk (a : Byte) : Bool := a.toNat ≤ Config.dataTop.toNat

/-- Store's address operand (R51): go on, or take `InvalidMemoryAccess(a)` (R63). -/
def withDataAddr (a : Byte) (s : State) (k : Result) : Result :=
  if storeAddrOk a then k else .next (s.takeFault .invalidMemoryAccess a)

end Sys2Proof.Machine
end

