-- ==== Sys2Proof/Machine/Flags.lean ====
section
/-! DEFINITION. The machine has no flags (10_state.md R17): no instruction sets a carry, overflow,
zero or sign indication. The one condition of the instruction set is Beqz's test of a register,
which this file holds. -/

namespace Sys2Proof.Machine

/-- Beqz's test (43_control_transfer.md R58): the whole byte equals 0x00; there is no signed test. -/
def isZero (v : Byte) : Bool := v = 0x00#8

end Sys2Proof.Machine
end

