-- ==== Sys2Proof/Machine/Arithmetic.lean ====
section
/-! DEFINITION. The arithmetic instructions Add, Sub, Addi and Subi (42_arithmetic.md R52 to R56):
exact modulo 256, no fault and no flag on overflow or underflow. -/

namespace Sys2Proof.Machine

/-- Format RR: `x[a] <- f(x[a], x[b])`, both sources read before the write (R47, R53, R54). -/
def arithRR (f : Byte → Byte → Byte) (regA regB : Byte) (s : State) : Result :=
  withRegs regA regB s fun r q => .next (s.setReg r (f (s.getReg r) (s.getReg q))).advance

/-- Format RI: `x[r] <- f(x[r], imm)`, `imm` a literal byte (R55, R56). -/
def arithRI (f : Byte → Byte → Byte) (reg imm : Byte) (s : State) : Result :=
  withReg reg s fun r => .next (s.setReg r (f (s.getReg r) imm)).advance

/-- Add (R53). -/
def execAdd (regA regB : Byte) (s : State) : Result := arithRR add8 regA regB s

/-- Sub (R54): `x[b1] - x[b2]`, not the reverse. -/
def execSub (regA regB : Byte) (s : State) : Result := arithRR sub8 regA regB s

/-- Addi (R55). -/
def execAddi (reg imm : Byte) (s : State) : Result := arithRI add8 reg imm s

/-- Subi (R56). -/
def execSubi (reg imm : Byte) (s : State) : Result := arithRI sub8 reg imm s

end Sys2Proof.Machine
end

