-- ==== Sys2Proof/Machine/ControlTransfer.lean ====
section
/-! DEFINITION. The control-transfer instructions Jump and Beqz (43_control_transfer.md R57, R58). -/

namespace Sys2Proof.Machine

/-- Jump (R57): the literal address, unchecked, and no epilogue. -/
def execJump (addr : Byte) (s : State) : Result := .next (s.setPc addr)

/-- Beqz (R58): when the register is zero the offset is added to the Beqz's own address; in both
cases the generic epilogue follows. The offset is an unsigned byte, modulo 256 (D16; log 20). -/
def execBeqz (reg offset : Byte) (s : State) : Result :=
  withReg reg s fun r =>
    .next (if isZero (s.getReg r) then s.setPc (add8 s.pc offset) else s).advance

end Sys2Proof.Machine
end

