-- ==== Sys2Proof/Machine/MemoryMove.lean ====
section
/-! DEFINITION. The memory-move instructions Load and Store (41_memory_move.md R50, R51). -/

namespace Sys2Proof.Machine

/-- Load (R50): the address is never checked. -/
def execLoad (reg addr : Byte) (s : State) : Result :=
  withReg reg s fun r => .next (s.setReg r (s.readByte addr)).advance

/-- Store (R51): the register index is checked before the address (D6; log 9). -/
def execStore (reg addr : Byte) (s : State) : Result :=
  withReg reg s fun r =>
    withDataAddr addr s (.next (s.writeByte addr (s.getReg r)).advance)

end Sys2Proof.Machine
end

