-- ==== Sys2Proof/Machine/System.lean ====
section
/-! DEFINITION. The one system instruction, Halt (44_halt.md R60, R61). -/

namespace Sys2Proof.Machine

/-- Halt (R60): the run state becomes Halted; no epilogue, nothing else written. -/
def execHalt (s : State) : Result := .next s.enterHalted

end Sys2Proof.Machine
end

