-- ==== Sys2Proof/Machine/Dispatch.lean ====
section
/-! DEFINITION. The dispatch of 40_cycle.md R44, one arm per instruction. It does not look at the run
state: that a step exists only in state Running is `stepOnce`'s (R42; log 15). -/

namespace Sys2Proof.Machine

def exec (i : Instr) (s : State) : Host.Outcome State Fault Refusal :=
  match i with
  | .load reg addr => Sys2Proof.Machine.execLoad reg addr s
  | .store reg addr => Sys2Proof.Machine.execStore reg addr s
  | .add regA regB => Sys2Proof.Machine.execAdd regA regB s
  | .sub regA regB => Sys2Proof.Machine.execSub regA regB s
  | .addi reg imm => Sys2Proof.Machine.execAddi reg imm s
  | .subi reg imm => Sys2Proof.Machine.execSubi reg imm s
  | .jump addr => Sys2Proof.Machine.execJump addr s
  | .beqz reg offset => Sys2Proof.Machine.execBeqz reg offset s
  | .halt => Sys2Proof.Machine.execHalt s

end Sys2Proof.Machine
end

