-- ==== Sys2Proof/Machine/Cycle.lean ====
section
/-! DEFINITION. The fetch-decode-execute cycle (40_cycle.md R42 to R44). -/

namespace Sys2Proof.Machine

/-- Fetch, decode and run one instruction (R43, R44); an opcode that names none takes
`UnrecognizedOpcode(op)` (R38, R64). -/
def runFetched (s : State) : Result :=
  match decode s.fetch.op s.fetch.b1 s.fetch.b2 with
  | .instr i => exec i s
  | .unrecognized op => .next (s.takeFault .unrecognizedOpcode op)

/-- One step: it exists if and only if the run state is Running (R42; log 4). -/
def stepOnce (s : State) : Result :=
  match s.runState with
  | .running => runFetched s
  | .halted => .fault .noStepHalted
  | .faulted => .fault .noStepFaulted

end Sys2Proof.Machine
end

