-- ==== Sys2Proof/Machine/Step.lean ====
section
/-! DEFINITION. The step, under the name the host calls, and the placing of an instruction where the
next step fetches it. -/

namespace Sys2Proof.Machine

/-- One step of the machine (R42). -/
def step (s : State) : Host.Outcome State Fault Refusal := stepOnce s

/-- `s` with the instruction of table word `w` (R33; log 12) stored at pc, pc+1 and pc+2 (log 3). -/
def State.withFetchWord (s : State) (nbits w : Nat) : State := s.placeBytes (tableBytes nbits w)

end Sys2Proof.Machine
end

