-- ==== Sys2Proof/Laws/PerInstr.lean ====
section
/-! SUPPORT. Statements made per instruction. `OpcodeAlone`: the opcode byte of an instruction's
encoding selects its mnemonic whatever the operand bytes are (40_cycle.md R44: "Dispatch is on the
opcode byte alone"). -/

namespace Sys2Proof.Laws.OpcodeAlone

def Statement (i : Instr) : Prop :=
  ∀ b1 b2 : Byte, ∃ j : Instr,
    decode (encode i).op b1 b2 = .instr j ∧ j.mnemonic = i.mnemonic

theorem load (reg addr : Byte) : Statement (.load reg addr) := fun b1 b2 => ⟨.load b1 b2, rfl, rfl⟩
theorem store (reg addr : Byte) : Statement (.store reg addr) := fun b1 b2 => ⟨.store b1 b2, rfl, rfl⟩
theorem add (regA regB : Byte) : Statement (.add regA regB) := fun b1 b2 => ⟨.add b1 b2, rfl, rfl⟩
theorem sub (regA regB : Byte) : Statement (.sub regA regB) := fun b1 b2 => ⟨.sub b1 b2, rfl, rfl⟩
theorem addi (reg imm : Byte) : Statement (.addi reg imm) := fun b1 b2 => ⟨.addi b1 b2, rfl, rfl⟩
theorem subi (reg imm : Byte) : Statement (.subi reg imm) := fun b1 b2 => ⟨.subi b1 b2, rfl, rfl⟩
theorem jump (addr : Byte) : Statement (.jump addr) := fun b1 _ => ⟨.jump b1, rfl, rfl⟩
theorem beqz (reg offset : Byte) : Statement (.beqz reg offset) := fun b1 b2 => ⟨.beqz b1 b2, rfl, rfl⟩
theorem halt : Statement .halt := fun _ _ => ⟨.halt, rfl, rfl⟩

end Sys2Proof.Laws.OpcodeAlone
end

