-- ==== Sys2Proof/Machine/HostOps.lean ====
section
/-! DEFINITION. The block as the host sees it (70_reset_and_hazards.md R79, R75; 20_memory.md R31):
the core, and whether the first reset has been applied; the moves of the host and of the core on it,
and what the host reads (10_state.md R15, R16). A move or a reading that is not allowed answers none:
while a run is in progress the host can only read the run state (D12; log 14). -/

namespace Sys2Proof.Machine

/-- The host's number for the run state (R15, D22; log 9). -/
def RunState.code : RunState → Nat
  | .running => 0
  | .halted => 1
  | .faulted => 2

/-- The host's number for a fault kind (R62, D7; log 9); 0 is no fault (R16). -/
def FaultKind.code : FaultKind → Nat
  | .invalidMemoryAccess => 1
  | .unrecognizedOpcode => 2
  | .indexFault => 3

/-- The core with the one thing R79 asks beside its state: whether a reset has been applied yet. -/
structure Block where
  /-- The core's state (R10). Before the first reset the spec gives it no value: statements take any
  (log 21). -/
  core : State
  /-- The first reset has been applied. -/
  wasReset : Bool
  deriving DecidableEq, Repr

/-- A block before its first reset, its core holding whatever it holds at power-up (U6; log 21). -/
def Block.powerUp (s : State) : Block := ⟨s, false⟩

/-- The host may act: before the first reset, or when no run is in progress (R79). -/
def hostMayAct (b : Block) : Bool :=
  match b.wasReset, b.core.runState with
  | false, _ => true
  | true, .running => false
  | true, .halted => true
  | true, .faulted => true

/-- Host writes memory cell `a`, in either region (R79). -/
def hostWrite (a v : Byte) (b : Block) : Option Block :=
  if hostMayAct b then some { b with core := b.core.writeByte a v } else none

/-- Host reads memory cell `a` (R79). -/
def hostRead (a : Byte) (b : Block) : Option Byte :=
  if hostMayAct b then some (b.core.readByte a) else none

/-- Host applies reset: a run begins (R73, R79). -/
def hostReset (b : Block) : Option Block :=
  if hostMayAct b then some ⟨b.core.applyReset, true⟩ else none

/-- Host reads the run state, at any time, before the first reset too (R79). -/
def hostRunState (b : Block) : Nat := b.core.runState.code

/-- Host reads the fault record, in state Faulted (R79). -/
def hostFault (b : Block) : Option (Nat × Byte) :=
  match b.core.runState with
  | .faulted => b.core.fault.map fun f => (f.kind.code, f.detail)
  | .running => none
  | .halted => none

/-- The core steps, in a run: after a reset, in state Running (R79, R42, R76; log 21). -/
def coreStep (b : Block) : Option Block :=
  if b.wasReset then
    match step b.core with
    | .next t => some { b with core := t }
    | .fault _ => none
    | .refused _ => none
  else none

/-- The moves that can change the block (R79: "The host has no other power"). -/
inductive Move where
  /-- The host writes a cell. -/
  | write (a v : Byte)
  /-- The host applies reset. -/
  | reset
  /-- The core takes a step. -/
  | core
  deriving DecidableEq, Repr

/-- The block after a move, none where the move is not allowed. -/
def Block.move (b : Block) : Move → Option Block
  | .write a v => hostWrite a v b
  | .reset => hostReset b
  | .core => coreStep b

/-- The block after a list of moves, first to last, none where one of them is not allowed. -/
def Block.moves (b : Block) : List Move → Option Block
  | [] => some b
  | m :: ms => (b.move m).bind fun c => c.moves ms

/-- Writes, first to last, over a memory. -/
def writeAll : List (Byte × Byte) → Memory → Memory
  | [], m => m
  | (a, v) :: ws, m => writeAll ws (m.write a v)

/-- The state a first run starts from (R75, R79): whatever memory held at power-up (U6), the host's
writes, and reset. -/
def hostBoot (powerUp : Memory) (writes : List (Byte × Byte)) : State :=
  { State.reset with mem := writeAll writes powerUp }

end Sys2Proof.Machine
end

