-- ==== Sys2Proof/Machine/Run.lean ====
section
/-! DEFINITION. The loop of 40_cycle.md R49 under fuel (D18), the end of a run
(70_reset_and_hazards.md R76) and one call of the source's `execute` (R79). -/

namespace Sys2Proof.Machine

/-- At most `n` steps, stopping where no step exists: in Halted and in Faulted (R49). -/
def runFor : Nat → State → State
  | 0, s => s
  | n + 1, s =>
    match step s with
    | .next t => runFor n t
    | .fault _ => s
    | .refused _ => s

/-- The host loads memory, applies reset, and the core takes at most `n` steps (R79). -/
def executeFor (n : Nat) (powerUp : Memory) (writes : List (Byte × Byte)) : State :=
  runFor n (hostBoot powerUp writes)

end Sys2Proof.Machine
end

