-- ==== Sys2Proof/WellFormed.lean ====
section
/-! DEFINITION. When an instruction is well formed: its operands pass the checks of 40_cycle.md R45
(register indices) and 41_memory_move.md R51 (Store's address), the "valid instructions" of
70_reset_and_hazards.md R75. Neither the decoder nor `step` asks for it (R41): an ill-formed
instruction runs and takes its fault (log 19). -/

namespace Sys2Proof

/-- A register-index operand in range (R12). -/
def indexInRange (i : Byte) : Bool := i.toNat < Config.nreg

/-- A Store address in the data region (R51). -/
def inDataRegion (a : Byte) : Bool := a.toNat ≤ Config.dataTop.toNat

def Instr.wellFormed : Instr → Bool
  | .load r _ => indexInRange r
  | .store r a => indexInRange r && inDataRegion a
  | .add a b => indexInRange a && indexInRange b
  | .sub a b => indexInRange a && indexInRange b
  | .addi r _ => indexInRange r
  | .subi r _ => indexInRange r
  | .jump _ => true
  | .beqz r _ => indexInRange r
  | .halt => true

end Sys2Proof
end

