-- ==== Sys2Proof/Safety.lean ====
section
/-! DEFINITION. The terms claims are stated in: the machine's invariant, what two states share, and
the end of a run. -/

namespace Sys2Proof.Machine

/-- The invariant of the machine: memory is in canonical form, and a fault record is held exactly in
run state Faulted (10_state.md R16). -/
abbrev State.Inv (s : State) : Prop :=
  s.mem.wf ∧ (s.fault.isSome = true ↔ s.runState = .faulted)

/-- The invariant of the block: its core's. Before the first reset it says that the fault record agrees
with the run state (10_state.md R16) and that memory is in the model's form. -/
abbrev Block.Inv (b : Block) : Prop := b.core.Inv

/-- The two states hold the same byte in every memory cell. -/
def State.SameMem (s t : State) : Prop := ∀ a : Byte, t.readByte a = s.readByte a

/-- The two states hold the same general registers. -/
def State.SameRegs (s t : State) : Prop := ∀ r : Reg, t.getReg r = s.getReg r

/-- The two states have the same run state and fault record. -/
def State.SameStatus (s t : State) : Prop := t.runState = s.runState ∧ t.fault = s.fault

/-- Nothing but register `r` and the pc may differ: the other register, every memory cell, the run
state and the fault record are as they were. -/
def State.OnlyRegChanged (s : State) (r : Reg) (t : State) : Prop :=
  (∀ q : Reg, q ≠ r → t.getReg q = s.getReg q) ∧ s.SameMem t ∧ s.SameStatus t

/-- `t` is `s` with fault `k` of detail `d` taken and nothing else changed (60_exceptions.md R69). -/
def State.FaultedFrom (s t : State) (k : FaultKind) (d : Byte) : Prop :=
  t.runState = .faulted ∧ t.fault = some ⟨k, d⟩ ∧ t.pc = s.pc ∧ s.SameRegs t ∧ s.SameMem t

/-- `t`'s pc is `s`'s moved on by the three bytes of an instruction, modulo 256 (40_cycle.md R46). -/
def State.Advanced (s t : State) : Prop := t.pc.toNat = (s.pc.toNat + 3) % 256

/-- The run is over (70_reset_and_hazards.md R76). -/
def State.Ended (s : State) : Prop := s.runState = .halted ∨ s.runState = .faulted

end Sys2Proof.Machine
end

