-- ==== Sys2Proof/Certificates/Slice0/Obligations.lean ====
section
/-! DEFINITION. The statements about the machine, for the provers. Each docstring names the rule of
spec/ it formalises or, where a clause rests on a decision the spec marks as its own or on a choice
of the model, says which (the decisions `D<n>` are in 92_eei_decisions.md, the entries "log n" in
notes/assumptions/). In every statement `r.index`, for `r : Reg`, ranges over all the valid index
bytes, 0x00 and 0x01. -/

open Sys2Proof Sys2Proof.Machine

/-! ### Encoding -/

/-- R36, the whole opcode map: the opcode byte alone selects the instruction, for every value of the
operand bytes; the same in the 24-bit match and mask columns. -/
def Obligations.OpcodeByteSelectsInstruction : Prop :=
  (∀ b1 b2 : Byte,
    decode 0x01#8 b1 b2 = .instr (.load b1 b2) ∧
    decode 0x02#8 b1 b2 = .instr (.store b1 b2) ∧
    decode 0x03#8 b1 b2 = .instr (.add b1 b2) ∧
    decode 0x04#8 b1 b2 = .instr (.sub b1 b2) ∧
    decode 0x05#8 b1 b2 = .instr (.addi b1 b2) ∧
    decode 0x06#8 b1 b2 = .instr (.subi b1 b2) ∧
    decode 0x07#8 b1 b2 = .instr (.jump b1) ∧
    decode 0x08#8 b1 b2 = .instr (.beqz b1 b2) ∧
    decode 0xFF#8 b1 b2 = .instr .halt ∧
    ∀ op : Byte, op.toNat = 0 ∨ (9 ≤ op.toNat ∧ op.toNat ≤ 0xFE) →
      decode op b1 b2 = .unrecognized op) ∧
  (∀ w : BitVec 24,
    (w &&& 0xFF0000#24 = 0x010000#24 →
      decodeTableWord 24 w.toNat = some (.load (w.extractLsb' 8 8) (w.extractLsb' 0 8))) ∧
    (w &&& 0xFF0000#24 = 0x020000#24 →
      decodeTableWord 24 w.toNat = some (.store (w.extractLsb' 8 8) (w.extractLsb' 0 8))) ∧
    (w &&& 0xFF0000#24 = 0x030000#24 →
      decodeTableWord 24 w.toNat = some (.add (w.extractLsb' 8 8) (w.extractLsb' 0 8))) ∧
    (w &&& 0xFF0000#24 = 0x040000#24 →
      decodeTableWord 24 w.toNat = some (.sub (w.extractLsb' 8 8) (w.extractLsb' 0 8))) ∧
    (w &&& 0xFF0000#24 = 0x050000#24 →
      decodeTableWord 24 w.toNat = some (.addi (w.extractLsb' 8 8) (w.extractLsb' 0 8))) ∧
    (w &&& 0xFF0000#24 = 0x060000#24 →
      decodeTableWord 24 w.toNat = some (.subi (w.extractLsb' 8 8) (w.extractLsb' 0 8))) ∧
    (w &&& 0xFF0000#24 = 0x070000#24 →
      decodeTableWord 24 w.toNat = some (.jump (w.extractLsb' 8 8))) ∧
    (w &&& 0xFF0000#24 = 0x080000#24 →
      decodeTableWord 24 w.toNat = some (.beqz (w.extractLsb' 8 8) (w.extractLsb' 0 8))) ∧
    (w &&& 0xFF0000#24 = 0xFF0000#24 → decodeTableWord 24 w.toNat = some .halt))

/-- 30_encoding.md R41's closing sentence: decoding and re-encoding agree for every instruction and
every operand value, and lose only the ignored bytes of Jump and Halt. The encoder's 0x00 for an
ignored byte is the spec's assembler convention (D14; log 11). -/
def Obligations.DecodeAndEncodeAgree : Prop :=
  (∀ i : Instr, decode (encode i).op (encode i).b1 (encode i).b2 = .instr i) ∧
  (∀ (op b1 b2 : Byte) (i : Instr),
    decode op b1 b2 = .instr i ↔
      op = (encode i).op ∧
      (i = .halt ∨ b1 = (encode i).b1) ∧
      (i = .halt ∨ (∃ a, i = .jump a) ∨ b2 = (encode i).b2))

/-- Words written out from the encoding strings of 30_encoding.md R36. -/
def Obligations.SampleWordsDecode : Prop :=
  decode 0b00000001#8 0b00000000#8 0b00000000#8 = .instr (.load 0 0) ∧
  decode 0b00000010#8 0b00000000#8 0b00000111#8 = .instr (.store 0 7) ∧
  decode 0b00000011#8 0b00000000#8 0b00000001#8 = .instr (.add 0 1) ∧
  decode 0b00000111#8 0b00001000#8 0b01011010#8 = .instr (.jump 8) ∧
  decode 0b11111111#8 0b00000010#8 0b10011001#8 = .instr .halt ∧
  decode 0b00001001#8 0b00000000#8 0b00000000#8 = .unrecognized 9

/-- Per instruction: its opcode byte alone selects its mnemonic (40_cycle.md R44's last sentence). -/
def Obligations.MnemonicFromOpcodeAlone : Prop :=
  ∀ i : Instr, Sys2Proof.Laws.OpcodeAlone.Statement i

/-- A table word placed at the pc is what the next step runs: its layout is D15 (log 12), and the
operand addresses wrap by D4 (log 7). Nothing else of the state changes by the placing. -/
def Obligations.PlacedTableWordRuns : Prop :=
  ∀ (s : State) (w : Nat) (i : Instr),
    s.runState = .running → s.mem.wf → decodeTableWord 24 w = some i →
      step (s.withFetchWord 24 w) = exec i (s.withFetchWord 24 w) ∧
      s.SameRegs (s.withFetchWord 24 w) ∧ s.SameStatus (s.withFetchWord 24 w) ∧
      (s.withFetchWord 24 w).pc = s.pc ∧
      ∀ a : Byte, a ≠ s.pc → a ≠ s.pc + 1#8 → a ≠ s.pc + 2#8 →
        (s.withFetchWord 24 w).readByte a = s.readByte a

/-! ### The step -/

/-- R44: the bytes fetched at the pc are decoded, and the step is the meaning of the decoded
instruction, or the unrecognized-opcode fault; the operand bytes never change which instruction. -/
def Obligations.StepRunsDecodedInstruction : Prop :=
  (∀ s : State, s.runState = .running →
    (∀ i : Instr, decode s.fetch.op s.fetch.b1 s.fetch.b2 = .instr i → step s = exec i s) ∧
    (∀ op : Byte, decode s.fetch.op s.fetch.b1 s.fetch.b2 = .unrecognized op →
      step s = .next (s.takeFault .unrecognizedOpcode op))) ∧
  (∀ (op b1 b2 c1 c2 : Byte) (i : Instr), decode op b1 b2 = .instr i →
    ∃ j : Instr, decode op c1 c2 = .instr j ∧ j.mnemonic = i.mnemonic)

/-- Instruction fetch (40_cycle.md R43, 20_memory.md R26): one byte each from pc, pc+1 and pc+2
modulo 256, in whatever region they lie. The wrap is D4 (log 7), the free region D5 (log 8). -/
def Obligations.FetchWrapsModulo256 : Prop :=
  ∀ s : State,
    s.fetch.op = s.mem.lookup s.pc.toNat ∧
    s.fetch.b1 = s.mem.lookup ((s.pc.toNat + 1) % 256) ∧
    s.fetch.b2 = s.mem.lookup ((s.pc.toNat + 2) % 256)

/-- 40_cycle.md R42: a step exists if and only if the run state is Running, and it then always
completes with a next state. The granularity is D1 (log 13); the two stops are the model's (log 4). -/
def Obligations.StepExistsIffRunning : Prop :=
  ∀ s : State,
    (s.runState = .running ↔ ∃ t, step s = .next t) ∧
    (s.runState = .halted ↔ step s = .fault .noStepHalted) ∧
    (s.runState = .faulted ↔ step s = .fault .noStepFaulted)

/-- The pc after a step (40_cycle.md R46, 10_state.md R13's table). That it stays at a Halt is D9 and
at a faulting instruction D10 (log 10). -/
def Obligations.PcAfterStep : Prop :=
  ∀ s t : State, s.runState = .running → step s = .next t →
    (s.fetch.op = 0x07#8 → t.pc = s.fetch.b1) ∧
    (t.runState = .halted ∨ t.runState = .faulted → t.pc = s.pc) ∧
    (t.runState = .running → s.fetch.op ≠ 0x07#8 →
      ((s.fetch.op = 0x08#8 ∧ ∃ r : Reg, s.fetch.b1 = r.index ∧ s.getReg r = 0x00#8) →
        t.pc.toNat = (s.pc.toNat + s.fetch.b2.toNat + 3) % 256) ∧
      (¬(s.fetch.op = 0x08#8 ∧ ∃ r : Reg, s.fetch.b1 = r.index ∧ s.getReg r = 0x00#8) →
        t.pc.toNat = (s.pc.toNat + 3) % 256))

/-- What one step may write (40_cycle.md R47): a Store at most the cell its address byte names, any
other instruction no cell and at most one register. The checks before the writes are D21 (log 17). -/
def Obligations.StepWritesAtMostOneCellOrRegister : Prop :=
  ∀ s t : State, step s = .next t →
    (s.fetch.op = 0x02#8 → s.SameRegs t ∧ ∀ a : Byte, a ≠ s.fetch.b2 → t.readByte a = s.readByte a) ∧
    (s.fetch.op ≠ 0x02#8 → s.SameMem t ∧ (t.x0 = s.x0 ∨ t.x1 = s.x1))

/-- Determinacy on what is read (40_cycle.md R42, R43; 20_memory.md R28): two states with the same
registers, pc and status, the same three instruction bytes and, for a Load, the same byte at its
address, take steps to states with the same registers, pc and status, whatever the other cells hold,
and every cell on which they agreed they still agree on. -/
def Obligations.StepDependsOnlyOnWhatItReads : Prop :=
  ∀ s s' t : State, s.mem.wf → s'.mem.wf →
    s.SameRegs s' → s.SameStatus s' → s'.pc = s.pc → s'.fetch = s.fetch →
    (s.fetch.op = 0x01#8 → s'.readByte s.fetch.b2 = s.readByte s.fetch.b2) →
    step s = .next t →
      ∃ t' : State, step s' = .next t' ∧
        t.SameRegs t' ∧ t.SameStatus t' ∧ t'.pc = t.pc ∧
        ∀ a : Byte, s'.readByte a = s.readByte a → t'.readByte a = t.readByte a

/-! ### The instructions -/

/-- R52: arithmetic is exact modulo 256, on the functions, on their identities and in the four
instructions, which complete whatever the values, with no fault and no trace but the result. -/
def Obligations.ArithmeticIsExactModulo256 : Prop :=
  (∀ a b : Byte,
    (add8 a b).toNat = (a.toNat + b.toNat) % 256 ∧
    ((sub8 a b).toNat : Int) = ((a.toNat : Int) - b.toNat) % 256 ∧
    (add8 a b).toInt = (a.toInt + b.toInt).bmod 256 ∧
    (sub8 a b).toInt = (a.toInt - b.toInt).bmod 256 ∧
    add8 a 0#8 = a ∧ sub8 a 0#8 = a ∧ sub8 a a = 0#8 ∧ (add8 a a).toNat = 2 * a.toNat % 256 ∧
    sub8 (add8 a b) b = a ∧ sub8 a b = add8 a (sub8 0#8 b)) ∧
  add8 0xFF#8 0x01#8 = 0x00#8 ∧ sub8 0x00#8 0x01#8 = 0xFF#8 ∧
  (∀ (s : State) (r q : Reg) (imm : Byte),
    (∃ t, exec (.add r.index q.index) s = .next t ∧
      t.getReg r = add8 (s.getReg r) (s.getReg q) ∧ s.OnlyRegChanged r t) ∧
    (∃ t, exec (.sub r.index q.index) s = .next t ∧
      t.getReg r = sub8 (s.getReg r) (s.getReg q) ∧ s.OnlyRegChanged r t) ∧
    (∃ t, exec (.addi r.index imm) s = .next t ∧
      t.getReg r = add8 (s.getReg r) imm ∧ s.OnlyRegChanged r t) ∧
    (∃ t, exec (.subi r.index imm) s = .next t ∧
      t.getReg r = sub8 (s.getReg r) imm ∧ s.OnlyRegChanged r t))

/-- Load with a valid index (41_memory_move.md, section Load): completes for every address. -/
def Obligations.LoadCopiesCellToRegister : Prop :=
  ∀ (s : State) (r : Reg) (addr : Byte), ∃ t : State,
    exec (.load r.index addr) s = .next t ∧
    t.getReg r = s.readByte addr ∧ s.Advanced t ∧ s.OnlyRegChanged r t

/-- Store with a valid index and an address in the data region (41_memory_move.md, section Store):
the one cell takes the register's byte. -/
def Obligations.StoreCopiesRegisterToCell : Prop :=
  ∀ (s : State) (r : Reg) (addr : Byte), s.mem.wf → addr.toNat ≤ 0x07 → ∃ t : State,
    exec (.store r.index addr) s = .next t ∧
    t.readByte addr = s.getReg r ∧ (∀ a : Byte, a ≠ addr → t.readByte a = s.readByte a) ∧
    s.Advanced t ∧ s.SameRegs t ∧ s.SameStatus t

/-- Add with valid indices, the same register twice among them (42_arithmetic.md, section Add). -/
def Obligations.AddAddsRegisters : Prop :=
  ∀ (s : State) (r q : Reg), ∃ t : State,
    exec (.add r.index q.index) s = .next t ∧
    (t.getReg r).toNat = ((s.getReg r).toNat + (s.getReg q).toNat) % 256 ∧
    s.Advanced t ∧ s.OnlyRegChanged r t

/-- Sub with valid indices: the first register minus the second (42_arithmetic.md, section Sub). -/
def Obligations.SubSubtractsRegisters : Prop :=
  ∀ (s : State) (r q : Reg), ∃ t : State,
    exec (.sub r.index q.index) s = .next t ∧
    ((t.getReg r).toNat : Int) = (((s.getReg r).toNat : Int) - (s.getReg q).toNat) % 256 ∧
    s.Advanced t ∧ s.OnlyRegChanged r t

/-- Addi with a valid index, for every literal byte (42_arithmetic.md, section Addi). -/
def Obligations.AddiAddsLiteral : Prop :=
  ∀ (s : State) (r : Reg) (imm : Byte), ∃ t : State,
    exec (.addi r.index imm) s = .next t ∧
    (t.getReg r).toNat = ((s.getReg r).toNat + imm.toNat) % 256 ∧
    s.Advanced t ∧ s.OnlyRegChanged r t

/-- Subi with a valid index, for every literal byte (42_arithmetic.md, section Subi). -/
def Obligations.SubiSubtractsLiteral : Prop :=
  ∀ (s : State) (r : Reg) (imm : Byte), ∃ t : State,
    exec (.subi r.index imm) s = .next t ∧
    ((t.getReg r).toNat : Int) = (((s.getReg r).toNat : Int) - imm.toNat) % 256 ∧
    s.Advanced t ∧ s.OnlyRegChanged r t

/-- R57: Jump, with its encoding `07 addr xx`: the pc becomes the literal address, with no +3, and
nothing else changes, for every target and from every state; a Jump to its own address steps to the
very same state, and so does any number of steps. -/
def Obligations.JumpSetsPcToAddress : Prop :=
  (∀ addr x : Byte, decode 0x07#8 addr x = .instr (.jump addr)) ∧
  (∀ (s : State) (addr : Byte), ∃ t : State,
    exec (.jump addr) s = .next t ∧
    t.pc = addr ∧ s.SameRegs t ∧ s.SameMem t ∧ s.SameStatus t) ∧
  (∀ (s : State) (n : Nat), s.runState = .running → s.fetch.op = 0x07#8 → s.fetch.b1 = s.pc →
    step s = .next s ∧ runFor n s = s)

/-- Beqz with a valid index (43_control_transfer.md, section Beqz): taken, it lands at pc + offset +
3; not taken, at pc + 3. -/
def Obligations.BeqzLandsAtOffsetPlusThree : Prop :=
  ∀ (s : State) (r : Reg) (offset : Byte), ∃ t : State,
    exec (.beqz r.index offset) s = .next t ∧
    (s.getReg r = 0x00#8 → t.pc.toNat = (s.pc.toNat + offset.toNat + 3) % 256) ∧
    (s.getReg r ≠ 0x00#8 → s.Advanced t) ∧
    s.SameRegs t ∧ s.SameMem t ∧ s.SameStatus t

/-- Halt (44_halt.md, section Halt), with its encoding `FF xx xx`: only the run state changes. That
the pc and the registers stay is D9 (log 10). -/
def Obligations.HaltEndsRun : Prop :=
  (∀ x y : Byte, decode 0xFF#8 x y = .instr .halt) ∧
  (∀ s : State, ∃ t : State,
    exec .halt s = .next t ∧ t.runState = .halted ∧
    t.pc = s.pc ∧ t.fault = s.fault ∧ s.SameRegs t ∧ s.SameMem t)

/-- Beqz with offset 0xFD lands on itself while the register is zero (43_control_transfer.md, section
Beqz, corner case (c)): its step completes, with the very same state, so that another step exists after
any number of them, and none faults (40_cycle.md, section 2). -/
def Obligations.BeqzToItselfRunsForever : Prop :=
  ∀ (s : State) (r : Reg) (n : Nat), s.runState = .running →
    s.fetch = ⟨0x08#8, r.index, 0xFD#8⟩ → s.getReg r = 0x00#8 →
      step s = .next s ∧ runFor n s = s ∧ step (runFor n s) = .next (runFor n s)

/-! ### Frames -/

/-- Frame of Load, Add, Sub, Addi and Subi, in every form: only the register the first operand names
may change; no cell of memory does; a form with a valid index (both, for Add and Sub) leaves the run
state and the fault record, and a form without leaves every register and the pc (D10, D21; log 10). -/
def Obligations.RegisterWritersFrame : Prop :=
  ∀ (s t : State) (a b : Byte) (i : Instr),
    i ∈ [Instr.load a b, Instr.add a b, Instr.sub a b, Instr.addi a b, Instr.subi a b] →
    exec i s = .next t →
      (∀ q : Reg, q.index ≠ a → t.getReg q = s.getReg q) ∧ s.SameMem t ∧
      (i.wellFormed = true → s.SameStatus t) ∧
      (i.wellFormed = false → s.SameRegs t ∧ t.pc = s.pc)

/-- Frame of Store, in every form: no register changes, no cell but the one at its address byte, and
where the index or the address is out of range no cell at all and not the pc (D10, D21; log 10). -/
def Obligations.StoreFrame : Prop :=
  ∀ (s t : State) (reg addr : Byte), exec (.store reg addr) s = .next t →
    s.SameRegs t ∧ (∀ a : Byte, a ≠ addr → t.readByte a = s.readByte a) ∧
    ((Instr.store reg addr).wellFormed = true → s.SameStatus t) ∧
    ((Instr.store reg addr).wellFormed = false → s.SameMem t ∧ t.pc = s.pc)

/-- Frame of Jump, Beqz and Halt, in every form: no register and no cell changes; Halt leaves the
fault record, and Jump and Beqz (with a valid index) the run state too; Beqz with an invalid index
leaves the pc. That Halt keeps the registers is D9, that an index fault keeps registers, memory and pc
is D10 (log 10). -/
def Obligations.ControlFrame : Prop :=
  ∀ (s t : State) (a b : Byte) (i : Instr),
    i ∈ [Instr.jump a, Instr.beqz a b, Instr.halt] → exec i s = .next t →
      s.SameRegs t ∧ s.SameMem t ∧
      (i.wellFormed = true → t.fault = s.fault ∧ (i ≠ .halt → t.runState = s.runState)) ∧
      (i.wellFormed = false → t.pc = s.pc)

/-! ### Faults -/

/-- R64: the unrecognized-opcode fault is taken exactly on the opcode bytes 0x00 and 0x09 to
0xFE, with the opcode byte as the detail, whatever the operand bytes are. -/
def Obligations.UnrecognizedOpcodeAlwaysFaults : Prop :=
  ∀ s : State, s.runState = .running → s.fault = none →
    ((s.fetch.op.toNat = 0 ∨ (9 ≤ s.fetch.op.toNat ∧ s.fetch.op.toNat ≤ 0xFE)) ↔
      ∃ (t : State) (d : Byte), step s = .next t ∧ t.fault = some ⟨.unrecognizedOpcode, d⟩) ∧
    (∀ (t : State) (d : Byte), step s = .next t → t.fault = some ⟨.unrecognizedOpcode, d⟩ →
      d = s.fetch.op ∧ t.runState = .faulted)

/-- A register index of 2 or more is the index fault, in every instruction that has one and for every
other operand (60_exceptions.md, section 1): nothing else changes. The number of registers is D2, the
detail byte D8, the order of the checks D6, and the pc that stays D10 (log 6, 9, 10). -/
def Obligations.InvalidRegisterIndexFaults : Prop :=
  ∀ (s : State) (x b : Byte), 2 ≤ x.toNat →
    (∀ i ∈ [Instr.load x b, Instr.store x b, Instr.add x b, Instr.sub x b, Instr.addi x b,
        Instr.subi x b, Instr.beqz x b],
      ∃ t : State, exec i s = .next t ∧ s.FaultedFrom t .indexFault x) ∧
    (∀ r : Reg, ∀ i ∈ [Instr.add r.index x, Instr.sub r.index x],
      ∃ t : State, exec i s = .next t ∧ s.FaultedFrom t .indexFault x)

/-- A Store with a valid index above 0x07 is the invalid-memory-access fault naming the address, and
nothing is written (60_exceptions.md, section 1; the pc that stays is D10, log 10). -/
def Obligations.StoreAboveDataRegionFaults : Prop :=
  ∀ (s : State) (r : Reg) (addr : Byte), 0x07 < addr.toNat → ∃ t : State,
    exec (.store r.index addr) s = .next t ∧ s.FaultedFrom t .invalidMemoryAccess addr

/-- The fault record after a step, by the check order of 40_cycle.md, section 1: opcode, index `b1`,
index `b2`, Store's address; the first that fails is recorded, and no other condition faults. The
order is D6, the detail of an index fault D8, the number of registers D2 (log 9, log 6). -/
def Obligations.FirstFailingCheckIsRecorded : Prop :=
  ∀ s t : State, s.runState = .running → s.fault = none → step s = .next t →
    t.fault =
      (if ¬(1 ≤ s.fetch.op.toNat ∧ s.fetch.op.toNat ≤ 8) ∧ s.fetch.op.toNat ≠ 0xFF then
        some ⟨.unrecognizedOpcode, s.fetch.op⟩
      else if s.fetch.op.toNat ≠ 7 ∧ s.fetch.op.toNat ≠ 0xFF ∧ 2 ≤ s.fetch.b1.toNat then
        some ⟨.indexFault, s.fetch.b1⟩
      else if (s.fetch.op.toNat = 3 ∨ s.fetch.op.toNat = 4) ∧ 2 ≤ s.fetch.b2.toNat then
        some ⟨.indexFault, s.fetch.b2⟩
      else if s.fetch.op.toNat = 2 ∧ 7 < s.fetch.b2.toNat then
        some ⟨.invalidMemoryAccess, s.fetch.b2⟩
      else none)

/-- Faults are precise (60_exceptions.md, section 4): the step that faults leaves registers, pc and
every cell of memory, and records its fault. The pc that stays is D10 (log 10). -/
def Obligations.FaultsArePrecise : Prop :=
  ∀ s t : State, s.runState = .running → step s = .next t → t.runState = .faulted →
    ∃ f : FaultRecord, s.FaultedFrom t f.kind f.detail

/-- An instruction takes no fault exactly when it is well formed (40_cycle.md R45, 41_memory_move.md
R51's checks; the model's predicate, log 19), and it always has a next state. -/
def Obligations.WellFormedIffNoFault : Prop :=
  ∀ (s : State) (i : Instr), s.runState = .running → ∃ t : State,
    exec i s = .next t ∧ (i.wellFormed = true ↔ t.runState ≠ .faulted) ∧
    (i.wellFormed = true → t.fault = s.fault)

/-- The run-state machine (10_state.md R15): which steps go from Running to Halted, to Faulted and to
Running, and that none leaves Halted or Faulted. The index bound 2 is D2 (log 6). -/
def Obligations.RunStateTransitions : Prop :=
  (∀ s t : State, s.runState = .running → step s = .next t →
    (t.runState = .halted ↔ s.fetch.op = 0xFF#8) ∧
    (t.runState = .faulted ↔
      (s.fetch.op.toNat = 0 ∨ (9 ≤ s.fetch.op.toNat ∧ s.fetch.op.toNat ≤ 0xFE)) ∨
      (((1 ≤ s.fetch.op.toNat ∧ s.fetch.op.toNat ≤ 6) ∨ s.fetch.op.toNat = 8) ∧ 2 ≤ s.fetch.b1.toNat) ∨
      ((s.fetch.op.toNat = 3 ∨ s.fetch.op.toNat = 4) ∧ 2 ≤ s.fetch.b2.toNat) ∨
      (s.fetch.op.toNat = 2 ∧ 7 < s.fetch.b2.toNat))) ∧
  (∀ s t : State, s.Ended → step s ≠ .next t)

/-- R70: nothing leaves Halted or Faulted, so no fault follows a fault and the record is not written
again; of all the moves on the block, reset alone leaves them, to a new run at 0x08 and not to the old
one, and any other keeps the run state and the fault record. -/
def Obligations.EndedStatesAreLeftByResetOnly : Prop :=
  ∀ s : State, s.Ended →
    (∀ t : State, step s ≠ .next t) ∧ (∀ n : Nat, runFor n s = s) ∧
    (∀ (mv : Move) (c : Block), (Block.mk s true).move mv = some c →
      mv = .reset ∨ (s.SameStatus c.core ∧ c.core.pc = s.pc ∧ c.wasReset = true)) ∧
    ∃ t : State, hostReset ⟨s, true⟩ = some ⟨t, true⟩ ∧ t = s.applyReset ∧
      t.runState = .running ∧ t.fault = none ∧ t.pc = 0x08#8

/-! ### Memory -/

/-- A read after a write (20_memory.md R25, R28): the cell written holds the byte, every other cell
what it held; and no field but memory changes. -/
def Obligations.ReadSeesLastWrite : Prop :=
  ∀ (s : State) (a v b : Byte), s.mem.wf →
    (s.writeByte a v).readByte b = (if b = a then v else s.readByte b) ∧
    (s.writeByte a v).mem.wf ∧ s.SameRegs (s.writeByte a v) ∧ s.SameStatus (s.writeByte a v) ∧
    (s.writeByte a v).pc = s.pc

/-- Canonical memories that hold the same bytes are the same data (20_memory.md R20; the model's form
of memory, log 18). -/
def Obligations.EqualContentsEqualMemory : Prop :=
  ∀ m m' : Memory, m.wf → m'.wf → (∀ a : Byte, m.read a = m'.read a) → m = m'

/-- Every image of 256 bytes is a memory of the model (10_state.md R19: a run takes the whole image as
its input; the model's form of memory, log 1, log 18). -/
def Obligations.EveryImageIsAMemory : Prop :=
  ∀ f : Byte → Byte, ∃ m : Memory, m.wf ∧ ∀ a : Byte, m.read a = f a

/-- A Store is seen by the very next fetch (20_memory.md R30): the three bytes fetched after it are
those of memory with the one cell changed. The immediate visibility is D13 (log 8). -/
def Obligations.StoreVisibleToNextFetch : Prop :=
  ∀ (s t : State) (r : Reg) (addr : Byte), s.mem.wf → addr.toNat ≤ 7 →
    exec (.store r.index addr) s = .next t →
      t.fetch.op = (if t.pc = addr then s.getReg r else s.readByte t.pc) ∧
      t.fetch.b1 = (if t.pc + 1#8 = addr then s.getReg r else s.readByte (t.pc + 1#8)) ∧
      t.fetch.b2 = (if t.pc + 2#8 = addr then s.getReg r else s.readByte (t.pc + 2#8))

/-- The instruction region is constant over a whole run (20_memory.md R22's consequence): no number of
steps changes a cell at 0x08 or above, from any state. -/
def Obligations.InstructionRegionNeverChanges : Prop :=
  ∀ (s : State) (n : Nat) (a : Byte), 0x08 ≤ a.toNat → (runFor n s).readByte a = s.readByte a

/-! ### Invariant, reset, run and host -/

/-- Every step keeps the invariant: memory in canonical form (the model's form, log 18) and a fault
record exactly in run state Faulted (10_state.md R16). -/
def Obligations.StepKeepsInvariant : Prop :=
  ∀ s t : State, s.Inv → step s = .next t → t.Inv

/-- The invariant holds after reset, of whatever memory the host has loaded, and every move on the
block keeps it, the host's and the core's (10_state.md R16, 70_reset_and_hazards.md R79; log 14,
log 18, log 21). -/
def Obligations.ResetAndHostKeepInvariant : Prop :=
  State.reset.Inv ∧
  (∀ (m : Memory) (ws : List (Byte × Byte)), m.wf → (hostBoot m ws).Inv) ∧
  (∀ (b c : Block) (mv : Move), b.Inv → b.move mv = some c → c.Inv)

/-- What reset leaves (70_reset_and_hazards.md, section 1; 10_state.md, section 6), of any state: the
given values and memory as it was. `x[1]` is 0x00 by D3 (log 2), the reset event itself D12 and D19
(log 3); State.reset is the reset of a machine whose memory lists nothing (log 1). -/
def Obligations.ResetLeavesStatedValues : Prop :=
  ∀ s : State,
    s.applyReset.pc = 0x08#8 ∧ s.applyReset.x0 = 0x00#8 ∧ s.applyReset.x1 = 0x00#8 ∧
    s.applyReset.runState = .running ∧ s.applyReset.fault = none ∧ s.SameMem s.applyReset ∧
    (s.mem = [] → s.applyReset = State.reset)

/-- R74: the first instruction after reset, of any state and memory, has its opcode byte at 0x08 and
its operands at 0x09 and 0x0A. -/
def Obligations.FirstInstructionIsAtEntryPoint : Prop :=
  ∀ s : State,
    (∀ i : Instr, decode (s.readByte 0x08#8) (s.readByte 0x09#8) (s.readByte 0x0A#8) = .instr i →
      step s.applyReset = exec i s.applyReset) ∧
    (∀ op : Byte,
      decode (s.readByte 0x08#8) (s.readByte 0x09#8) (s.readByte 0x0A#8) = .unrecognized op →
        step s.applyReset = .next (s.applyReset.takeFault .unrecognizedOpcode op))

/-- The loop (40_cycle.md R49, under fuel by D18): no step with no fuel; where a step exists the run
takes it and goes on from the state it gives; where none exists it stays; so runs compose, and a run
that has ended stays as it ended. -/
def Obligations.RunsComposeAndStayEnded : Prop :=
  (∀ s : State, runFor 0 s = s) ∧
  (∀ (s t : State) (n : Nat), step s = .next t → runFor (n + 1) s = runFor n t) ∧
  (∀ (s : State) (n : Nat), (∀ t : State, step s ≠ .next t) → runFor n s = s) ∧
  (∀ (s : State) (m n : Nat),
    runFor (m + n) s = runFor n (runFor m s) ∧
    ((runFor m s).Ended → runFor (m + n) s = runFor m s))

/-- The host's load before a first run (70_reset_and_hazards.md, sections 2 and 6): from any block
before its first reset the host's writes and its reset are allowed and lead to `hostBoot`; there each
cell holds the last byte the host wrote to it, or what it held at power-up, and the registers, pc and
status are reset's. `x[1]` is 0x00 by D3 (log 2); the block before the first reset is log 21's. -/
def Obligations.HostLoadPlacesImage : Prop :=
  (∀ (s : State) (ws : List (Byte × Byte)),
    (Block.powerUp s).moves (ws.map (fun w => .write w.1 w.2) ++ [.reset]) =
      some ⟨hostBoot s.mem ws, true⟩) ∧
  ∀ (m : Memory) (ws : List (Byte × Byte)) (a v : Byte), m.wf →
    (hostBoot m (ws ++ [(a, v)])).readByte a = v ∧
    (∀ b : Byte, b ≠ a → (hostBoot m (ws ++ [(a, v)])).readByte b = (hostBoot m ws).readByte b) ∧
    (hostBoot m []).mem = m ∧
    (hostBoot m ws).x0 = 0x00#8 ∧ (hostBoot m ws).x1 = 0x00#8 ∧
    (hostBoot m ws).pc = 0x08#8 ∧ (hostBoot m ws).runState = .running ∧
    (hostBoot m ws).fault = none

/-- What the host may do and see (70_reset_and_hazards.md, section 6), before the first reset, in a run
and after it: in a run no move but to read the run state; before the first reset and after the run
every move; and the core steps in a run alone, in state Running. The run-state and fault numbers are
D22 and D7, that the host has no other move is D12 (log 9, log 14), that the core takes no step before
the first reset log 21. -/
def Obligations.HostActsOnlyOutsideRuns : Prop :=
  ∀ (s : State) (a v : Byte),
    (s.runState = .running →
      hostWrite a v ⟨s, true⟩ = none ∧ hostRead a ⟨s, true⟩ = none ∧ hostReset ⟨s, true⟩ = none) ∧
    (∀ b : Block, (b = .powerUp s ∨ (b = ⟨s, true⟩ ∧ s.Ended)) →
      hostWrite a v b = some ⟨s.writeByte a v, b.wasReset⟩ ∧ hostRead a b = some (s.readByte a) ∧
      hostReset b = some ⟨s.applyReset, true⟩ ∧ coreStep b = none) ∧
    (∀ t : State, coreStep ⟨s, true⟩ = some ⟨t, true⟩ ↔ step s = .next t) ∧
    (∀ w : Bool,
      (s.runState = .running → hostRunState ⟨s, w⟩ = 0 ∧ hostFault ⟨s, w⟩ = none) ∧
      (s.runState = .halted → hostRunState ⟨s, w⟩ = 1 ∧ hostFault ⟨s, w⟩ = none) ∧
      (s.runState = .faulted → hostRunState ⟨s, w⟩ = 2 ∧
        ∀ d : Byte,
          (s.fault = some ⟨.invalidMemoryAccess, d⟩ → hostFault ⟨s, w⟩ = some (1, d)) ∧
          (s.fault = some ⟨.unrecognizedOpcode, d⟩ → hostFault ⟨s, w⟩ = some (2, d)) ∧
          (s.fault = some ⟨.indexFault, d⟩ → hostFault ⟨s, w⟩ = some (3, d))))
end

