-- ==== Sys2Proof/Laws/State.lean ====
section
/-! SUPPORT. One lemma per field per update of the state, so that no proof unfolds a record update. -/

namespace Sys2Proof.Machine

@[simp] theorem writeByte_x0 (s : State) (a v : Byte) : (s.writeByte a v).x0 = s.x0 := rfl
@[simp] theorem writeByte_x1 (s : State) (a v : Byte) : (s.writeByte a v).x1 = s.x1 := rfl
@[simp] theorem writeByte_pc (s : State) (a v : Byte) : (s.writeByte a v).pc = s.pc := rfl
@[simp] theorem writeByte_mem (s : State) (a v : Byte) : (s.writeByte a v).mem = s.mem.write a v := rfl
@[simp] theorem writeByte_runState (s : State) (a v : Byte) : (s.writeByte a v).runState = s.runState := rfl
@[simp] theorem writeByte_fault (s : State) (a v : Byte) : (s.writeByte a v).fault = s.fault := rfl

@[simp] theorem setReg_pc (s : State) (r : Reg) (v : Byte) : (s.setReg r v).pc = s.pc := by cases r <;> rfl
@[simp] theorem setReg_mem (s : State) (r : Reg) (v : Byte) : (s.setReg r v).mem = s.mem := by cases r <;> rfl
@[simp] theorem setReg_runState (s : State) (r : Reg) (v : Byte) : (s.setReg r v).runState = s.runState := by
  cases r <;> rfl
@[simp] theorem setReg_fault (s : State) (r : Reg) (v : Byte) : (s.setReg r v).fault = s.fault := by
  cases r <;> rfl
@[simp] theorem setReg_readByte (s : State) (r : Reg) (v a : Byte) :
    (s.setReg r v).readByte a = s.readByte a := by cases r <;> rfl

@[simp] theorem setPc_x0 (s : State) (t : Byte) : (s.setPc t).x0 = s.x0 := rfl
@[simp] theorem setPc_x1 (s : State) (t : Byte) : (s.setPc t).x1 = s.x1 := rfl
@[simp] theorem setPc_pc (s : State) (t : Byte) : (s.setPc t).pc = t := rfl
@[simp] theorem setPc_mem (s : State) (t : Byte) : (s.setPc t).mem = s.mem := rfl
@[simp] theorem setPc_runState (s : State) (t : Byte) : (s.setPc t).runState = s.runState := rfl
@[simp] theorem setPc_fault (s : State) (t : Byte) : (s.setPc t).fault = s.fault := rfl
@[simp] theorem setPc_readByte (s : State) (t a : Byte) : (s.setPc t).readByte a = s.readByte a := rfl
@[simp] theorem setPc_getReg (s : State) (t : Byte) (r : Reg) : (s.setPc t).getReg r = s.getReg r := by
  cases r <;> rfl

@[simp] theorem advance_x0 (s : State) : s.advance.x0 = s.x0 := rfl
@[simp] theorem advance_x1 (s : State) : s.advance.x1 = s.x1 := rfl
@[simp] theorem advance_pc (s : State) : s.advance.pc = add8 s.pc Config.ilen := rfl
@[simp] theorem advance_mem (s : State) : s.advance.mem = s.mem := rfl
@[simp] theorem advance_runState (s : State) : s.advance.runState = s.runState := rfl
@[simp] theorem advance_fault (s : State) : s.advance.fault = s.fault := rfl
@[simp] theorem advance_readByte (s : State) (a : Byte) : s.advance.readByte a = s.readByte a := rfl
@[simp] theorem advance_getReg (s : State) (r : Reg) : s.advance.getReg r = s.getReg r := by
  cases r <;> rfl

@[simp] theorem takeFault_x0 (s : State) (k : FaultKind) (d : Byte) : (s.takeFault k d).x0 = s.x0 := rfl
@[simp] theorem takeFault_x1 (s : State) (k : FaultKind) (d : Byte) : (s.takeFault k d).x1 = s.x1 := rfl
@[simp] theorem takeFault_pc (s : State) (k : FaultKind) (d : Byte) : (s.takeFault k d).pc = s.pc := rfl
@[simp] theorem takeFault_mem (s : State) (k : FaultKind) (d : Byte) : (s.takeFault k d).mem = s.mem := rfl
@[simp] theorem takeFault_runState (s : State) (k : FaultKind) (d : Byte) :
    (s.takeFault k d).runState = .faulted := rfl
@[simp] theorem takeFault_fault (s : State) (k : FaultKind) (d : Byte) :
    (s.takeFault k d).fault = some ⟨k, d⟩ := rfl
@[simp] theorem takeFault_readByte (s : State) (k : FaultKind) (d a : Byte) :
    (s.takeFault k d).readByte a = s.readByte a := rfl
@[simp] theorem takeFault_getReg (s : State) (k : FaultKind) (d : Byte) (r : Reg) :
    (s.takeFault k d).getReg r = s.getReg r := by cases r <;> rfl

@[simp] theorem enterHalted_x0 (s : State) : s.enterHalted.x0 = s.x0 := rfl
@[simp] theorem enterHalted_x1 (s : State) : s.enterHalted.x1 = s.x1 := rfl
@[simp] theorem enterHalted_pc (s : State) : s.enterHalted.pc = s.pc := rfl
@[simp] theorem enterHalted_mem (s : State) : s.enterHalted.mem = s.mem := rfl
@[simp] theorem enterHalted_runState (s : State) : s.enterHalted.runState = .halted := rfl
@[simp] theorem enterHalted_fault (s : State) : s.enterHalted.fault = s.fault := rfl
@[simp] theorem enterHalted_readByte (s : State) (a : Byte) : s.enterHalted.readByte a = s.readByte a := rfl
@[simp] theorem enterHalted_getReg (s : State) (r : Reg) : s.enterHalted.getReg r = s.getReg r := by
  cases r <;> rfl

@[simp] theorem applyReset_mem (s : State) : s.applyReset.mem = s.mem := rfl
@[simp] theorem applyReset_runState (s : State) : s.applyReset.runState = .running := rfl
@[simp] theorem applyReset_fault (s : State) : s.applyReset.fault = none := rfl

@[simp] theorem getReg_setReg_same (s : State) (r : Reg) (v : Byte) : (s.setReg r v).getReg r = v := by
  cases r <;> rfl

theorem getReg_setReg_other (s : State) {r q : Reg} (v : Byte) (h : q ≠ r) :
    (s.setReg r v).getReg q = s.getReg q := by
  cases r <;> cases q <;> first | rfl | exact absurd rfl h

@[simp] theorem getReg_writeByte (s : State) (a v : Byte) (r : Reg) :
    (s.writeByte a v).getReg r = s.getReg r := by cases r <;> rfl

end Sys2Proof.Machine
end

