-- ==== Sys2Proof/Laws/Memory.lean ====
section
/-! SUPPORT. The laws of memory: a read after a write, that every operation keeps the canonical form,
and that canonical memories with the same contents are the same list. -/

namespace Sys2Proof.Machine

theorem lookup_consCell_same (n : Nat) (v : Byte) (m : Memory)
    (h : Memory.lookup m n = Config.unlistedByte) : Memory.lookup (Memory.consCell n v m) n = v := by
  unfold Memory.consCell
  split
  · next hv => rw [h, hv]
  · simp [Memory.lookup]

theorem lookup_consCell_other {n k : Nat} (v : Byte) (m : Memory) (h : k ≠ n) :
    Memory.lookup (Memory.consCell n v m) k = Memory.lookup m k := by
  unfold Memory.consCell
  split
  · rfl
  · simp [Memory.lookup, Ne.symm h]

/-- Below the first address of a strictly rising list nothing is listed. -/
theorem lookup_of_lt_all (m : Memory) (n : Nat) (h : ∀ c ∈ m, n < c.1) :
    Memory.lookup m n = Config.unlistedByte := by
  induction m with
  | nil => rfl
  | cons c m ih =>
    obtain ⟨k, b⟩ := c
    have hk : n < k := h (k, b) (by simp)
    have ih' := ih fun d hd => h d (by simp [hd])
    simp only [Memory.lookup, ih']
    exact if_neg (by omega)

theorem lookup_insert_same (m : Memory) (n : Nat) (v : Byte)
    (h : m.Pairwise fun c d => c.1 < d.1) : Memory.lookup (Memory.insert m n v) n = v := by
  induction m with
  | nil => exact lookup_consCell_same n v [] rfl
  | cons c m ih =>
    obtain ⟨k, b⟩ := c
    obtain ⟨hlt, hm⟩ := List.pairwise_cons.mp h
    simp only [Memory.insert]
    split
    · next hn =>
      apply lookup_consCell_same
      apply lookup_of_lt_all
      intro d hd
      rcases List.mem_cons.mp hd with rfl | hd
      · exact hn
      · exact lt_trans hn (hlt d hd)
    · split
      · next hn =>
        apply lookup_consCell_same
        apply lookup_of_lt_all
        intro d hd
        exact hn ▸ hlt d hd
      · next hn => simp [Memory.lookup, Ne.symm hn, ih hm]

theorem lookup_insert_other (m : Memory) {n k : Nat} (v : Byte) (h : k ≠ n) :
    Memory.lookup (Memory.insert m n v) k = Memory.lookup m k := by
  induction m with
  | nil => exact lookup_consCell_other v [] h
  | cons c m ih =>
    obtain ⟨j, b⟩ := c
    simp only [Memory.insert]
    split
    · exact lookup_consCell_other v _ h
    · split
      · next hn => rw [lookup_consCell_other v _ h]; simp [Memory.lookup, ← hn, Ne.symm h]
      · simp [Memory.lookup, ih]

/-- A cell an insertion lists is an old one or the one written. -/
theorem mem_insert {m : Memory} {n : Nat} {v : Byte} {c : Host.Cell}
    (h : c ∈ Memory.insert m n v) : c ∈ m ∨ (c = (n, v) ∧ v ≠ Config.unlistedByte) := by
  have cons : ∀ m : Memory, c ∈ Memory.consCell n v m →
      c ∈ m ∨ (c = (n, v) ∧ v ≠ Config.unlistedByte) := by
    intro m hc
    unfold Memory.consCell at hc
    split at hc
    · exact .inl hc
    · next hv =>
      rcases List.mem_cons.mp hc with rfl | hc
      · exact .inr ⟨rfl, hv⟩
      · exact .inl hc
  induction m with
  | nil => exact cons [] h
  | cons d m ih =>
    obtain ⟨k, b⟩ := d
    simp only [Memory.insert] at h
    split at h
    · exact cons _ h
    · split at h
      · rcases cons m h with h | h
        · exact .inl (List.mem_cons_of_mem _ h)
        · exact .inr h
      · rcases List.mem_cons.mp h with rfl | h
        · exact .inl (by simp)
        · rcases ih h with h | h
          · exact .inl (List.mem_cons_of_mem _ h)
          · exact .inr h

theorem insert_rising (m : Memory) (n : Nat) (v : Byte)
    (h : m.Pairwise fun c d => c.1 < d.1) :
    (Memory.insert m n v).Pairwise fun c d => c.1 < d.1 := by
  have cons : ∀ m : Memory, m.Pairwise (fun c d => c.1 < d.1) → (∀ c ∈ m, n < c.1) →
      (Memory.consCell n v m).Pairwise fun c d => c.1 < d.1 := by
    intro m hm hall
    unfold Memory.consCell
    split
    · exact hm
    · exact List.pairwise_cons.mpr ⟨hall, hm⟩
  induction m with
  | nil => exact cons [] .nil (by simp)
  | cons c m ih =>
    obtain ⟨k, b⟩ := c
    obtain ⟨hlt, hm⟩ := List.pairwise_cons.mp h
    simp only [Memory.insert]
    split
    · next hn =>
      refine cons _ h fun d hd => ?_
      rcases List.mem_cons.mp hd with rfl | hd
      · exact hn
      · exact lt_trans hn (hlt d hd)
    · split
      · next hn => exact cons m hm fun d hd => hn ▸ hlt d hd
      · next h1 h2 =>
        refine List.pairwise_cons.mpr ⟨fun d hd => ?_, ih hm⟩
        rcases mem_insert hd with hd | ⟨rfl, -⟩
        · exact hlt d hd
        · show k < n
          omega

/-- Every write keeps the canonical form. -/
theorem write_wf {m : Memory} (a v : Byte) (h : m.wf) : (m.write a v).wf := by
  refine ⟨insert_rising m _ v h.1, fun c hc => ?_⟩
  rcases mem_insert hc with hc | ⟨rfl, hv⟩
  · exact h.2 c hc
  · exact ⟨a.isLt, hv⟩

/-- A run of host writes keeps the canonical form. -/
theorem writeAll_wf (ws : List (Byte × Byte)) (m : Memory) (h : m.wf) : (writeAll ws m).wf := by
  induction ws generalizing m with
  | nil => exact h
  | cons w ws ih => exact ih (m.write w.1 w.2) (write_wf w.1 w.2 h)

/-- Reset's memory is canonical. -/
theorem reset_mem_wf : State.reset.mem.wf := by decide

theorem read_write_same {m : Memory} (a v : Byte) (h : m.wf) : (m.write a v).read a = v :=
  lookup_insert_same m _ v h.1

theorem read_write_other (m : Memory) {a b : Byte} (v : Byte) (h : b ≠ a) :
    (m.write a v).read b = m.read b :=
  lookup_insert_other m v fun hn => h (BitVec.eq_of_toNat_eq hn)

theorem readByte_writeByte_same {s : State} (a v : Byte) (h : s.mem.wf) :
    (s.writeByte a v).readByte a = v :=
  read_write_same a v h

theorem readByte_writeByte_other (s : State) {a b : Byte} (v : Byte) (h : b ≠ a) :
    (s.writeByte a v).readByte b = s.readByte b :=
  read_write_other s.mem v h

/-- In a canonical list a listed cell is what its address looks up. -/
theorem lookup_of_mem {m : Memory} {n : Nat} {v : Byte} (h : m.Pairwise fun c d => c.1 < d.1)
    (hm : (n, v) ∈ m) : Memory.lookup m n = v := by
  induction m with
  | nil => cases hm
  | cons c m ih =>
    obtain ⟨k, b⟩ := c
    obtain ⟨hlt, hp⟩ := List.pairwise_cons.mp h
    rcases List.mem_cons.mp hm with heq | hm
    · cases heq
      simp [Memory.lookup]
    · have : k < n := hlt _ hm
      simp only [Memory.lookup]
      rw [if_neg (by omega)]
      exact ih hp hm

/-- An address that looks up something is listed. -/
theorem mem_of_lookup {m : Memory} {n : Nat} (h : Memory.lookup m n ≠ Config.unlistedByte) :
    (n, Memory.lookup m n) ∈ m := by
  induction m with
  | nil => exact absurd rfl h
  | cons c m ih =>
    obtain ⟨k, b⟩ := c
    simp only [Memory.lookup] at h ⊢
    split
    · next hk => simp [hk]
    · next hk =>
      rw [if_neg hk] at h
      exact List.mem_cons_of_mem _ (ih h)

end Sys2Proof.Machine
end

