-- ==== Sys2Proof/Laws/Operations.lean ====
section
/-! SUPPORT. One lemma per shared operation that says everything it can do, to be cited in place of
its definition. -/

namespace Sys2Proof.Machine

theorem add8_toNat (a b : Byte) : (add8 a b).toNat = (a.toNat + b.toNat) % 256 :=
  BitVec.toNat_add a b

theorem sub8_toNat (a b : Byte) : (sub8 a b).toNat = (256 - b.toNat + a.toNat) % 256 :=
  BitVec.toNat_sub a b

/-- The generic epilogue moves the pc by three, modulo 256. -/
theorem advance_advanced (s : State) : s.Advanced s.advance := add8_toNat s.pc Config.ilen

theorem regOfIndex_index (r : Reg) : regOfIndex r.index = some r := by cases r <;> rfl

theorem regOfIndex_isNone {i : Byte} (h : 2 ≤ i.toNat) : regOfIndex i = none := by
  have : regValid i = false := by simp [regValid, Config.nreg]; omega
  simp [regOfIndex, this]

/-- An index byte is a register's own index, or 2 or more. -/
theorem index_cases (i : Byte) : (∃ r : Reg, i = r.index) ∨ 2 ≤ i.toNat := by
  by_cases h0 : i.toNat = 0
  · exact .inl ⟨.x0, BitVec.eq_of_toNat_eq h0⟩
  · by_cases h1 : i.toNat = 1
    · exact .inl ⟨.x1, BitVec.eq_of_toNat_eq h1⟩
    · exact .inr (by omega)

theorem withReg_index (r : Reg) (s : State) (k : Reg → Result) : withReg r.index s k = k r := by
  simp [withReg, regOfIndex_index]

theorem withReg_invalid {i : Byte} (h : 2 ≤ i.toNat) (s : State) (k : Reg → Result) :
    withReg i s k = .next (s.takeFault .indexFault i) := by
  simp [withReg, regOfIndex_isNone h]

/-- One register operand: the register it names, or the index fault. -/
theorem withReg_cases (i : Byte) (s : State) (k : Reg → Result) :
    (∃ r : Reg, i = r.index ∧ withReg i s k = k r) ∨
      (2 ≤ i.toNat ∧ withReg i s k = .next (s.takeFault .indexFault i)) := by
  rcases index_cases i with ⟨r, rfl⟩ | h
  · exact .inl ⟨r, rfl, withReg_index r s k⟩
  · exact .inr ⟨h, withReg_invalid h s k⟩

/-- Two register operands: both registers, the fault of the first, or the fault of the second. -/
theorem withRegs_cases (i j : Byte) (s : State) (k : Reg → Reg → Result) :
    (∃ r q : Reg, i = r.index ∧ j = q.index ∧ withRegs i j s k = k r q) ∨
      (2 ≤ i.toNat ∧ withRegs i j s k = .next (s.takeFault .indexFault i)) ∨
      (i.toNat < 2 ∧ 2 ≤ j.toNat ∧ withRegs i j s k = .next (s.takeFault .indexFault j)) := by
  unfold withRegs
  rcases withReg_cases i s (fun r => withReg j s fun q => k r q) with ⟨r, rfl, h⟩ | h
  · rw [h]
    rcases withReg_cases j s (fun q => k r q) with ⟨q, rfl, h'⟩ | ⟨hj, h'⟩
    · exact .inl ⟨r, q, rfl, rfl, h'⟩
    · exact .inr (.inr ⟨by cases r <;> decide, hj, h'⟩)
  · exact .inr (.inl h)

/-- Store's address operand: in the data region, or the fault. -/
theorem withDataAddr_cases (a : Byte) (s : State) (k : Result) :
    (a.toNat ≤ 7 ∧ withDataAddr a s k = k) ∨
      (7 < a.toNat ∧ withDataAddr a s k = .next (s.takeFault .invalidMemoryAccess a)) := by
  have top : Config.dataTop.toNat = 7 := rfl
  by_cases h : a.toNat ≤ 7
  · exact .inl ⟨h, by simp [withDataAddr, storeAddrOk, top, h]⟩
  · exact .inr ⟨by omega, by simp [withDataAddr, storeAddrOk, top, h]⟩

theorem takeFault_faultedFrom (s : State) (k : FaultKind) (d : Byte) :
    s.FaultedFrom (s.takeFault k d) k d :=
  ⟨rfl, rfl, rfl, fun r => takeFault_getReg s k d r, fun _ => rfl⟩

theorem step_running {s : State} (h : s.runState = .running) : step s = runFetched s := by
  simp [step, stepOnce, h]

theorem runFetched_instr {s : State} {i : Instr}
    (h : decode s.fetch.op s.fetch.b1 s.fetch.b2 = .instr i) : runFetched s = exec i s := by
  simp [runFetched, h]

theorem runFetched_unrecognized {s : State} {op : Byte}
    (h : decode s.fetch.op s.fetch.b1 s.fetch.b2 = .unrecognized op) :
    runFetched s = .next (s.takeFault .unrecognizedOpcode op) := by
  simp [runFetched, h]

/-! ### The block's moves -/

@[simp] theorem hostMayAct_powerUp (s : State) : hostMayAct (.powerUp s) = true := rfl

theorem hostMayAct_ended {s : State} (w : Bool) (h : s.Ended) : hostMayAct ⟨s, w⟩ = true := by
  cases w <;> rcases h with h | h <;> simp [hostMayAct, h]

theorem hostMayAct_running {s : State} (h : s.runState = .running) : hostMayAct ⟨s, true⟩ = false := by
  simp [hostMayAct, h]

/-- Everything a move can do: a host write or a reset when the host may act, or a step of the core in
a run. -/
theorem move_cases {b c : Block} {mv : Move} (h : b.move mv = some c) :
    (∃ a v, mv = .write a v ∧ hostMayAct b = true ∧ c = ⟨b.core.writeByte a v, b.wasReset⟩) ∨
      (mv = .reset ∧ hostMayAct b = true ∧ c = ⟨b.core.applyReset, true⟩) ∨
      (mv = .core ∧ b.wasReset = true ∧ c.wasReset = true ∧ step b.core = .next c.core) := by
  cases mv with
  | write a v =>
    simp only [Block.move, hostWrite] at h
    split at h <;> cases h
    exact .inl ⟨a, v, rfl, ‹_›, rfl⟩
  | reset =>
    simp only [Block.move, hostReset] at h
    split at h <;> cases h
    exact .inr (.inl ⟨rfl, ‹_›, rfl⟩)
  | core =>
    simp only [Block.move, coreStep] at h
    split at h
    · next hw =>
      split at h <;> cases h
      exact .inr (.inr ⟨rfl, hw, hw, ‹_›⟩)
    · cases h

end Sys2Proof.Machine
end

