-- ==== Sys2Proof/Laws/Instructions.lean ====
section
/-! SUPPORT. What each meaning can answer, said once: the next state of each of its cases. Proofs
about an instruction cite its lemma and do not unfold the meaning. -/

namespace Sys2Proof.Machine

theorem execLoad_cases (reg addr : Byte) (s : State) :
    (∃ r : Reg, reg = r.index ∧
        exec (.load reg addr) s = .next (s.setReg r (s.readByte addr)).advance) ∨
      (2 ≤ reg.toNat ∧ exec (.load reg addr) s = .next (s.takeFault .indexFault reg)) :=
  withReg_cases reg s _

theorem execStore_cases (reg addr : Byte) (s : State) :
    (∃ r : Reg, reg = r.index ∧ addr.toNat ≤ 7 ∧
        exec (.store reg addr) s = .next (s.writeByte addr (s.getReg r)).advance) ∨
      (2 ≤ reg.toNat ∧ exec (.store reg addr) s = .next (s.takeFault .indexFault reg)) ∨
      (∃ r : Reg, reg = r.index ∧ 7 < addr.toNat ∧
        exec (.store reg addr) s = .next (s.takeFault .invalidMemoryAccess addr)) := by
  rcases withReg_cases reg s fun r =>
      withDataAddr addr s (.next (s.writeByte addr (s.getReg r)).advance) with ⟨r, hr, h⟩ | h
  · rcases withDataAddr_cases addr s (.next (s.writeByte addr (s.getReg r)).advance) with ⟨ha, h'⟩ | ⟨ha, h'⟩
    · exact .inl ⟨r, hr, ha, h.trans h'⟩
    · exact .inr (.inr ⟨r, hr, ha, h.trans h'⟩)
  · exact .inr (.inl h)

theorem execAdd_cases (regA regB : Byte) (s : State) :
    (∃ r q : Reg, regA = r.index ∧ regB = q.index ∧
        exec (.add regA regB) s = .next (s.setReg r (add8 (s.getReg r) (s.getReg q))).advance) ∨
      (2 ≤ regA.toNat ∧ exec (.add regA regB) s = .next (s.takeFault .indexFault regA)) ∨
      (regA.toNat < 2 ∧ 2 ≤ regB.toNat ∧
        exec (.add regA regB) s = .next (s.takeFault .indexFault regB)) :=
  withRegs_cases regA regB s _

theorem execSub_cases (regA regB : Byte) (s : State) :
    (∃ r q : Reg, regA = r.index ∧ regB = q.index ∧
        exec (.sub regA regB) s = .next (s.setReg r (sub8 (s.getReg r) (s.getReg q))).advance) ∨
      (2 ≤ regA.toNat ∧ exec (.sub regA regB) s = .next (s.takeFault .indexFault regA)) ∨
      (regA.toNat < 2 ∧ 2 ≤ regB.toNat ∧
        exec (.sub regA regB) s = .next (s.takeFault .indexFault regB)) :=
  withRegs_cases regA regB s _

theorem execAddi_cases (reg imm : Byte) (s : State) :
    (∃ r : Reg, reg = r.index ∧
        exec (.addi reg imm) s = .next (s.setReg r (add8 (s.getReg r) imm)).advance) ∨
      (2 ≤ reg.toNat ∧ exec (.addi reg imm) s = .next (s.takeFault .indexFault reg)) :=
  withReg_cases reg s _

theorem execSubi_cases (reg imm : Byte) (s : State) :
    (∃ r : Reg, reg = r.index ∧
        exec (.subi reg imm) s = .next (s.setReg r (sub8 (s.getReg r) imm)).advance) ∨
      (2 ≤ reg.toNat ∧ exec (.subi reg imm) s = .next (s.takeFault .indexFault reg)) :=
  withReg_cases reg s _

theorem execJump_eq (addr : Byte) (s : State) : exec (.jump addr) s = .next (s.setPc addr) := rfl

theorem execBeqz_cases (reg offset : Byte) (s : State) :
    (∃ r : Reg, reg = r.index ∧ s.getReg r = 0#8 ∧
        exec (.beqz reg offset) s = .next (s.setPc (add8 s.pc offset)).advance) ∨
      (∃ r : Reg, reg = r.index ∧ s.getReg r ≠ 0#8 ∧ exec (.beqz reg offset) s = .next s.advance) ∨
      (2 ≤ reg.toNat ∧ exec (.beqz reg offset) s = .next (s.takeFault .indexFault reg)) := by
  rcases withReg_cases reg s fun r =>
      .next (if isZero (s.getReg r) then s.setPc (add8 s.pc offset) else s).advance with ⟨r, hr, h⟩ | h
  · by_cases hz : s.getReg r = 0#8
    · refine .inl ⟨r, hr, hz, h.trans ?_⟩
      simp [isZero, hz]
    · refine .inr (.inl ⟨r, hr, hz, h.trans ?_⟩)
      simp [isZero, hz]
  · exact .inr (.inr h)

theorem execHalt_eq (s : State) : exec .halt s = .next s.enterHalted := rfl

/-- What three bytes decode to, opcode by opcode. -/
theorem decode_cases (op b1 b2 : Byte) :
    (op.toNat = 1 ∧ decode op b1 b2 = .instr (.load b1 b2)) ∨
    (op.toNat = 2 ∧ decode op b1 b2 = .instr (.store b1 b2)) ∨
    (op.toNat = 3 ∧ decode op b1 b2 = .instr (.add b1 b2)) ∨
    (op.toNat = 4 ∧ decode op b1 b2 = .instr (.sub b1 b2)) ∨
    (op.toNat = 5 ∧ decode op b1 b2 = .instr (.addi b1 b2)) ∨
    (op.toNat = 6 ∧ decode op b1 b2 = .instr (.subi b1 b2)) ∨
    (op.toNat = 7 ∧ decode op b1 b2 = .instr (.jump b1)) ∨
    (op.toNat = 8 ∧ decode op b1 b2 = .instr (.beqz b1 b2)) ∨
    (op.toNat = 255 ∧ decode op b1 b2 = .instr .halt) ∨
    ((op.toNat = 0 ∨ (9 ≤ op.toNat ∧ op.toNat ≤ 254)) ∧ decode op b1 b2 = .unrecognized op) := by
  have key : ∀ n : Byte, op = n ↔ op.toNat = n.toNat := fun n => BitVec.toNat_inj.symm
  have hlt := op.isLt
  unfold decode
  simp only [key, opLoad, opStore, opAdd, opSub, opAddi, opSubi, opJump, opBeqz, opHalt,
    BitVec.toNat_ofNat]
  by_cases h : (1 ≤ op.toNat ∧ op.toNat ≤ 8) ∨ op.toNat = 255
  · have : op.toNat = 1 ∨ op.toNat = 2 ∨ op.toNat = 3 ∨ op.toNat = 4 ∨ op.toNat = 5 ∨ op.toNat = 6 ∨
        op.toNat = 7 ∨ op.toNat = 8 ∨ op.toNat = 255 := by omega
    rcases this with h | h | h | h | h | h | h | h | h <;> simp [h]
  · simp (disch := omega) only [if_neg]
    simp
    omega

end Sys2Proof.Machine
end

