-- ==== Sys2Proof/Laws/Step.lean ====
section
/-! SUPPORT. What a step can do, said once, and the small lemmas of the loop. -/

namespace Sys2Proof.Machine

/-- Every way a step of state `s` can answer the next state `t`: one constructor per instruction form
that completes and per fault condition, with what it says of the fetched bytes and of `t`. -/
inductive StepKind (s t : State) : Prop
  | load (r : Reg) (ho : s.fetch.op.toNat = 1) (h1 : s.fetch.b1 = r.index)
      (ht : t = (s.setReg r (s.readByte s.fetch.b2)).advance)
  | store (r : Reg) (ho : s.fetch.op.toNat = 2) (h1 : s.fetch.b1 = r.index) (h2 : s.fetch.b2.toNat ≤ 7)
      (ht : t = (s.writeByte s.fetch.b2 (s.getReg r)).advance)
  | rr (r q : Reg) (v : Byte)
      (ho : s.fetch.op.toNat = 3 ∧ v = add8 (s.getReg r) (s.getReg q) ∨
        s.fetch.op.toNat = 4 ∧ v = sub8 (s.getReg r) (s.getReg q))
      (h1 : s.fetch.b1 = r.index) (h2 : s.fetch.b2 = q.index)
      (ht : t = (s.setReg r v).advance)
  | ri (r : Reg) (v : Byte)
      (ho : s.fetch.op.toNat = 5 ∧ v = add8 (s.getReg r) s.fetch.b2 ∨
        s.fetch.op.toNat = 6 ∧ v = sub8 (s.getReg r) s.fetch.b2)
      (h1 : s.fetch.b1 = r.index)
      (ht : t = (s.setReg r v).advance)
  | jump (ho : s.fetch.op.toNat = 7) (ht : t = s.setPc s.fetch.b1)
  | taken (r : Reg) (ho : s.fetch.op.toNat = 8) (h1 : s.fetch.b1 = r.index) (hz : s.getReg r = 0#8)
      (ht : t = (s.setPc (add8 s.pc s.fetch.b2)).advance)
  | notTaken (r : Reg) (ho : s.fetch.op.toNat = 8) (h1 : s.fetch.b1 = r.index) (hz : s.getReg r ≠ 0#8)
      (ht : t = s.advance)
  | halt (ho : s.fetch.op.toNat = 255) (ht : t = s.enterHalted)
  | unrec (ho : s.fetch.op.toNat = 0 ∨ (9 ≤ s.fetch.op.toNat ∧ s.fetch.op.toNat ≤ 254))
      (ht : t = s.takeFault .unrecognizedOpcode s.fetch.op)
  | idx1 (ho : (1 ≤ s.fetch.op.toNat ∧ s.fetch.op.toNat ≤ 6) ∨ s.fetch.op.toNat = 8)
      (h1 : 2 ≤ s.fetch.b1.toNat)
      (ht : t = s.takeFault .indexFault s.fetch.b1)
  | idx2 (ho : s.fetch.op.toNat = 3 ∨ s.fetch.op.toNat = 4)
      (h1 : s.fetch.b1.toNat < 2) (h2 : 2 ≤ s.fetch.b2.toNat)
      (ht : t = s.takeFault .indexFault s.fetch.b2)
  | addr (r : Reg) (ho : s.fetch.op.toNat = 2) (h1 : s.fetch.b1 = r.index) (h2 : 7 < s.fetch.b2.toNat)
      (ht : t = s.takeFault .invalidMemoryAccess s.fetch.b2)

/-- The inversion lemma of the step: cite it in place of unfolding `step`, `decode` or `exec`. -/
theorem step_kind {s t : State} (hr : s.runState = .running) (h : step s = .next t) : StepKind s t := by
  rw [step_running hr] at h
  rcases decode_cases s.fetch.op s.fetch.b1 s.fetch.b2 with
    ⟨ho, hd⟩ | ⟨ho, hd⟩ | ⟨ho, hd⟩ | ⟨ho, hd⟩ | ⟨ho, hd⟩ | ⟨ho, hd⟩ | ⟨ho, hd⟩ | ⟨ho, hd⟩ | ⟨ho, hd⟩ | ⟨ho, hd⟩
  · rw [runFetched_instr hd] at h
    rcases execLoad_cases s.fetch.b1 s.fetch.b2 s with ⟨r, h1, he⟩ | ⟨h1, he⟩ <;> (rw [he] at h; cases h)
    · exact .load r ho h1 rfl
    · exact .idx1 (by omega) h1 rfl
  · rw [runFetched_instr hd] at h
    rcases execStore_cases s.fetch.b1 s.fetch.b2 s with
      ⟨r, h1, h2, he⟩ | ⟨h1, he⟩ | ⟨r, h1, h2, he⟩ <;> (rw [he] at h; cases h)
    · exact .store r ho h1 h2 rfl
    · exact .idx1 (by omega) h1 rfl
    · exact .addr r ho h1 h2 rfl
  · rw [runFetched_instr hd] at h
    rcases execAdd_cases s.fetch.b1 s.fetch.b2 s with
      ⟨r, q, h1, h2, he⟩ | ⟨h1, he⟩ | ⟨h1, h2, he⟩ <;> (rw [he] at h; cases h)
    · exact .rr r q _ (.inl ⟨ho, rfl⟩) h1 h2 rfl
    · exact .idx1 (by omega) h1 rfl
    · exact .idx2 (by omega) h1 h2 rfl
  · rw [runFetched_instr hd] at h
    rcases execSub_cases s.fetch.b1 s.fetch.b2 s with
      ⟨r, q, h1, h2, he⟩ | ⟨h1, he⟩ | ⟨h1, h2, he⟩ <;> (rw [he] at h; cases h)
    · exact .rr r q _ (.inr ⟨ho, rfl⟩) h1 h2 rfl
    · exact .idx1 (by omega) h1 rfl
    · exact .idx2 (by omega) h1 h2 rfl
  · rw [runFetched_instr hd] at h
    rcases execAddi_cases s.fetch.b1 s.fetch.b2 s with ⟨r, h1, he⟩ | ⟨h1, he⟩ <;> (rw [he] at h; cases h)
    · exact .ri r _ (.inl ⟨ho, rfl⟩) h1 rfl
    · exact .idx1 (by omega) h1 rfl
  · rw [runFetched_instr hd] at h
    rcases execSubi_cases s.fetch.b1 s.fetch.b2 s with ⟨r, h1, he⟩ | ⟨h1, he⟩ <;> (rw [he] at h; cases h)
    · exact .ri r _ (.inr ⟨ho, rfl⟩) h1 rfl
    · exact .idx1 (by omega) h1 rfl
  · rw [runFetched_instr hd, execJump_eq] at h; cases h; exact .jump ho rfl
  · rw [runFetched_instr hd] at h
    rcases execBeqz_cases s.fetch.b1 s.fetch.b2 s with
      ⟨r, h1, h2, he⟩ | ⟨r, h1, h2, he⟩ | ⟨h1, he⟩ <;> (rw [he] at h; cases h)
    · exact .taken r ho h1 h2 rfl
    · exact .notTaken r ho h1 h2 rfl
    · exact .idx1 (by omega) h1 rfl
  · rw [runFetched_instr hd, execHalt_eq] at h; cases h; exact .halt ho rfl
  · rw [runFetched_unrecognized hd] at h; cases h; exact .unrec ho rfl

/-- A step exists only in run state Running. -/
theorem running_of_step {s t : State} (h : step s = .next t) : s.runState = .running := by
  cases hr : s.runState <;> simp_all [step, stepOnce]

@[simp] theorem runFor_zero (s : State) : runFor 0 s = s := rfl

theorem runFor_next {s t : State} (h : step s = .next t) (n : Nat) :
    runFor (n + 1) s = runFor n t := by
  simp [runFor, h]

end Sys2Proof.Machine
end

