-- ==== Sys2Proof/Tests/Slice0.lean ====
section
/-! SUPPORT. The model's own tests: the well-formedness smoke test, a word written out from the spec's
encoding for each instruction, single-step vectors of 95_test_vectors.md (cited by their ids there),
and, for each statement with hypotheses, a concrete state and operands that meet them. -/

namespace Sys2Proof.Tests

open Sys2Proof.Machine

/-! ### Helpers -/

/-- A Running state with the given registers and memory cells. -/
def at_ (x0 x1 pc : Byte) (cells : List Host.Cell) : State :=
  { State.reset with x0 := x0, x1 := x1, pc := pc, mem := cells }

/-- The same with the instruction bytes `w` placed at the pc. -/
def withInstr (x0 x1 pc : Byte) (cells : List Host.Cell) (op b1 b2 : Byte) : State :=
  (at_ x0 x1 pc cells).placeBytes ⟨op, b1, b2⟩

/-- One step answers a next state of which `p` holds. -/
def stepsTo (s : State) (p : State → Bool) : Bool :=
  match step s with
  | .next t => p t
  | .fault _ => false
  | .refused _ => false

/-- The fault record of `t` after the step from `s`, with registers, pc and memory as they were. -/
def faultsWith (s : State) (k : FaultKind) (d : Byte) : Bool :=
  stepsTo s fun t => decide (t = { s with runState := .faulted, fault := some ⟨k, d⟩ })

/-! ### Well-formedness: each check refuses a term -/

theorem test_wellFormed_refuses :
    (Instr.load 2 0).wellFormed = false ∧ (Instr.store 2 0).wellFormed = false ∧
    (Instr.store 0 8).wellFormed = false ∧ (Instr.add 2 0).wellFormed = false ∧
    (Instr.add 0 2).wellFormed = false ∧ (Instr.sub 255 0).wellFormed = false ∧
    (Instr.sub 0 255).wellFormed = false ∧ (Instr.addi 2 0).wellFormed = false ∧
    (Instr.subi 128 0).wellFormed = false ∧ (Instr.beqz 2 0).wellFormed = false := by decide

theorem test_wellFormed_accepts :
    (Instr.load 1 255).wellFormed = true ∧ (Instr.store 1 7).wellFormed = true ∧
    (Instr.add 1 1).wellFormed = true ∧ (Instr.sub 0 1).wellFormed = true ∧
    (Instr.addi 1 255).wellFormed = true ∧ (Instr.subi 0 2).wellFormed = true ∧
    (Instr.jump 2).wellFormed = true ∧ (Instr.beqz 1 255).wellFormed = true ∧
    Instr.halt.wellFormed = true := by decide

theorem test_memory_wf_refuses :
    ¬ Memory.wf [(1, 5#8), (1, 6#8)] ∧ ¬ Memory.wf [(2, 5#8), (1, 6#8)] ∧
    ¬ Memory.wf [(256, 5#8)] ∧ ¬ Memory.wf [(1, 0#8)] ∧ Memory.wf [(0, 5#8), (255, 6#8)] := by decide

/-! ### Decoding: words written out from the encoding strings of 30_encoding.md R36 -/

theorem test_decode_load :
    decode 0b00000001#8 0b00000001#8 0b11111110#8 = .instr (.load 0x01#8 0xFE#8) := by decide
theorem test_decode_store :
    decode 0b00000010#8 0b00000000#8 0b00000111#8 = .instr (.store 0x00#8 0x07#8) := by decide
theorem test_decode_add :
    decode 0b00000011#8 0b00000001#8 0b00000000#8 = .instr (.add 0x01#8 0x00#8) := by decide
theorem test_decode_sub :
    decode 0b00000100#8 0b00000000#8 0b00000001#8 = .instr (.sub 0x00#8 0x01#8) := by decide
theorem test_decode_addi :
    decode 0b00000101#8 0b00000000#8 0b10000101#8 = .instr (.addi 0x00#8 0x85#8) := by decide
theorem test_decode_subi :
    decode 0b00000110#8 0b00000001#8 0b00000001#8 = .instr (.subi 0x01#8 0x01#8) := by decide
/-- The third byte is ignored (R37). -/
theorem test_decode_jump :
    decode 0b00000111#8 0b00001000#8 0b01011010#8 = .instr (.jump 0x08#8) := by decide
theorem test_decode_beqz :
    decode 0b00001000#8 0b00000001#8 0b11110111#8 = .instr (.beqz 0x01#8 0xF7#8) := by decide
/-- Both operand bytes are ignored (R37). -/
theorem test_decode_halt :
    decode 0b11111111#8 0b00000010#8 0b10011001#8 = .instr .halt := by decide
/-- V-D1 to V-D5: unrecognized opcode bytes, 0x81 among them (all eight bits are matched). -/
theorem test_decode_unrecognized :
    decode 0x00#8 0#8 0#8 = .unrecognized 0x00#8 ∧ decode 0x09#8 0#8 0#8 = .unrecognized 0x09#8 ∧
    decode 0xFE#8 0#8 0#8 = .unrecognized 0xFE#8 ∧ decode 0x81#8 0#8 0#8 = .unrecognized 0x81#8 := by
  decide
/-- opcode_table.json: `W[23:16]` is the opcode, `W[15:8]` is `b1`, `W[7:0]` is `b2`. -/
theorem test_decodeTableWord :
    decodeTableWord 24 0x010203 = some (.load 0x02#8 0x03#8) ∧
    decodeTableWord 24 0xFF0000 = some .halt ∧ decodeTableWord 24 0x090000 = none := by decide

/-! ### Single steps (95_test_vectors.md, part 2) -/

/-- V-M2. -/
theorem test_load_top_cell :
    stepsTo (withInstr 0x00#8 0xEE#8 0x08#8 [(0xFF, 0x7C#8)] 0x01#8 0x01#8 0xFF#8)
      (fun t => t.x1 = 0x7C#8 && t.pc = 0x0B#8 && t.x0 = 0x00#8) = true := by decide
/-- V-M4: a Load of its own address byte. -/
theorem test_load_own_byte :
    stepsTo (withInstr 0x55#8 0x00#8 0x0B#8 [] 0x01#8 0x01#8 0x0D#8)
      (fun t => t.x1 = 0x0D#8 && t.pc = 0x0E#8) = true := by decide
/-- V-M7 and V-M13. -/
theorem test_store_boundary :
    stepsTo (withInstr 0x99#8 0x00#8 0x08#8 [] 0x02#8 0x00#8 0x07#8)
      (fun t => t.readByte 0x07#8 = 0x99#8 && t.pc = 0x0B#8 && t.x0 = 0x99#8) = true ∧
    stepsTo (withInstr 0x07#8 0x00#8 0xFD#8 [] 0x02#8 0x00#8 0x05#8)
      (fun t => t.readByte 0x05#8 = 0x07#8 && t.pc = 0x00#8) = true := by decide
/-- V-M8 and V-M12: above the boundary, and both conditions at once. -/
theorem test_store_faults :
    faultsWith (withInstr 0x99#8 0x00#8 0x08#8 [] 0x02#8 0x00#8 0x08#8)
      .invalidMemoryAccess 0x08#8 = true ∧
    faultsWith (withInstr 0x99#8 0x00#8 0x08#8 [] 0x02#8 0x02#8 0x08#8) .indexFault 0x02#8 = true := by
  decide
/-- V-A2 and V-A3: a wrap, and the same register twice. -/
theorem test_add_wraps :
    stepsTo (withInstr 0xC8#8 0x64#8 0x08#8 [] 0x03#8 0x00#8 0x01#8)
      (fun t => t.x0 = 0x2C#8 && t.x1 = 0x64#8 && t.pc = 0x0B#8) = true ∧
    stepsTo (withInstr 0x81#8 0x00#8 0x08#8 [] 0x03#8 0x00#8 0x00#8)
      (fun t => t.x0 = 0x02#8) = true := by decide
/-- V-A16 and V-A17. -/
theorem test_add_index_faults :
    faultsWith (withInstr 0x33#8 0x00#8 0x08#8 [] 0x03#8 0x00#8 0x02#8) .indexFault 0x02#8 = true ∧
    faultsWith (withInstr 0x33#8 0x00#8 0x08#8 [] 0x03#8 0x05#8 0x09#8) .indexFault 0x05#8 = true := by
  decide
/-- V-A8: the order of Sub's operands. -/
theorem test_sub_order :
    stepsTo (withInstr 0x20#8 0x10#8 0x08#8 [] 0x04#8 0x01#8 0x00#8)
      (fun t => t.x1 = 0xF0#8 && t.x0 = 0x20#8 && t.pc = 0x0B#8) = true := by decide
/-- V-A7. -/
theorem test_sub_clears :
    stepsTo (withInstr 0x20#8 0x5A#8 0x08#8 [] 0x04#8 0x01#8 0x01#8)
      (fun t => t.x1 = 0x00#8) = true := by decide
/-- V-A9 and V-A15: a wrap, and a literal that is no index. -/
theorem test_addi :
    stepsTo (withInstr 0xFF#8 0x00#8 0x08#8 [] 0x05#8 0x00#8 0x01#8)
      (fun t => t.x0 = 0x00#8 && t.pc = 0x0B#8) = true ∧
    stepsTo (withInstr 0x05#8 0x00#8 0x08#8 [] 0x05#8 0x00#8 0x02#8)
      (fun t => t.x0 = 0x07#8) = true := by decide
/-- V-A12 and V-A20. -/
theorem test_subi :
    stepsTo (withInstr 0x00#8 0x00#8 0x08#8 [] 0x06#8 0x00#8 0x01#8)
      (fun t => t.x0 = 0xFF#8 && t.pc = 0x0B#8) = true ∧
    faultsWith (withInstr 0x00#8 0x00#8 0x08#8 [] 0x06#8 0x80#8 0x01#8) .indexFault 0x80#8 = true := by
  decide
/-- V-C1 and V-C4. -/
theorem test_jump :
    stepsTo (withInstr 0x01#8 0x02#8 0x20#8 [] 0x07#8 0x08#8 0x00#8)
      (fun t => t.pc = 0x08#8 && t.x0 = 0x01#8) = true ∧
    stepsTo (withInstr 0x01#8 0x02#8 0x08#8 [] 0x07#8 0x02#8 0x00#8)
      (fun t => t.pc = 0x02#8) = true := by decide
/-- V-C6, V-C12 and V-C15: taken. -/
theorem test_beqz_taken :
    stepsTo (withInstr 0x00#8 0x01#8 0x08#8 [] 0x08#8 0x00#8 0x10#8)
      (fun t => t.pc = 0x1B#8) = true ∧
    stepsTo (withInstr 0x00#8 0x01#8 0xF0#8 [] 0x08#8 0x00#8 0x20#8)
      (fun t => t.pc = 0x13#8) = true ∧
    stepsTo (withInstr 0x00#8 0x01#8 0x08#8 [] 0x08#8 0x00#8 0xFF#8)
      (fun t => t.pc = 0x0A#8) = true := by decide
/-- V-C8 and V-C13: not taken, and at the top of memory. -/
theorem test_beqz_not_taken :
    stepsTo (withInstr 0x00#8 0x80#8 0x08#8 [] 0x08#8 0x01#8 0x10#8)
      (fun t => t.pc = 0x0B#8) = true ∧
    stepsTo (withInstr 0x05#8 0x00#8 0xFE#8 [] 0x08#8 0x00#8 0x10#8)
      (fun t => t.pc = 0x01#8) = true := by decide
/-- V-H1 and V-H2: Halt ignores its operand bytes; and no step follows (V-R2). -/
theorem test_halt :
    stepsTo (withInstr 0x42#8 0x00#8 0x0B#8 [] 0xFF#8 0x02#8 0x99#8)
      (fun t => t.runState = .halted && t.pc = 0x0B#8 && t.x0 = 0x42#8 && t.fault = none &&
        !stepsTo t fun _ => true) = true := by decide
/-- V-D4, and P8d: memory of zeros at reset. -/
theorem test_unrecognized_faults :
    faultsWith (withInstr 0x00#8 0x00#8 0x08#8 [] 0x0A#8 0x02#8 0xFF#8) .unrecognizedOpcode 0x0A#8 = true ∧
    faultsWith State.reset .unrecognizedOpcode 0x00#8 = true := by decide
/-- V-R4: reset after a faulted run keeps memory and nothing else. -/
theorem test_reset_after_fault :
    hostReset ⟨(at_ 0x09#8 0x00#8 0x0E#8 [(1, 0x09#8)]).takeFault .invalidMemoryAccess 0x08#8, true⟩ =
      some ⟨{ State.reset with mem := [(1, 0x09#8)] }, true⟩ := by decide
/-- V-R5: the first step after reset, x[1] zero, so the Beqz is taken. -/
theorem test_first_step_after_reset :
    stepsTo (hostBoot [] [(0x08#8, 0x08#8), (0x09#8, 0x01#8), (0x0A#8, 0x10#8)])
      (fun t => t.pc = 0x1B#8) = true := by decide

/-- The bytes of S8's first row, placed by `withFetchWord` at reset. -/
theorem test_withFetchWord :
    stepsTo (State.reset.withFetchWord 24 0x050005)
      (fun t => t.x0 = 0x05#8 && t.pc = 0x0B#8 && t.readByte 0x0A#8 = 0x05#8) = true := by decide

/-- R79 before the first reset: the host reads memory and the run state, and nothing else moves. -/
theorem test_before_first_reset :
    hostRead 0xFF#8 (.powerUp (at_ 0#8 0#8 0#8 [(255, 9#8)])) = some 9#8 ∧
    hostRunState (.powerUp (State.reset.takeFault .indexFault 2#8)) = 2 ∧
    coreStep (.powerUp State.reset) = none := by decide

/-! ### Witnesses: what each statement with hypotheses assumes can be met, at its boundaries -/

/-- Opcode bytes at the ends of the unrecognized ranges, and one table word per mask clause. -/
theorem witness_OpcodeByteSelectsInstruction :
    (∀ op ∈ [0x00#8, 0x09#8, 0xFE#8], op.toNat = 0 ∨ (9 ≤ op.toNat ∧ op.toNat ≤ 0xFE)) ∧
    (∀ n ∈ [1, 2, 3, 4, 5, 6, 7, 8, 255],
      (BitVec.ofNat 24 (n * 65536 + 65535)) &&& 0xFF0000#24 = BitVec.ofNat 24 (n * 65536)) := by decide

theorem witness_DecodeAndEncodeAgree :
    decode 0x07#8 0xFF#8 0x5A#8 = .instr (.jump 0xFF#8) ∧ decode 0xFF#8 0x01#8 0x02#8 = .instr .halt := by
  decide

/-- At the top of memory, where the operand bytes wrap into the data region. -/
theorem witness_PlacedTableWordRuns :
    (at_ 0#8 0#8 0xFE#8 []).runState = .running ∧ (at_ 0#8 0#8 0xFE#8 []).mem.wf ∧
    decodeTableWord 24 0x0101FF = some (.load 0x01#8 0xFF#8) ∧
    (0x01#8 : Byte) ≠ 0xFE#8 ∧ (0x01#8 : Byte) ≠ 0xFE#8 + 1#8 ∧ (0x01#8 : Byte) ≠ 0xFE#8 + 2#8 := by
  decide

theorem witness_StepRunsDecodedInstruction :
    (at_ 0#8 0#8 0x08#8 [(8, 0xFF#8)]).runState = .running ∧
    decode 0xFF#8 0#8 0#8 = .instr .halt ∧
    (at_ 0#8 0#8 0x08#8 [(8, 0xFF#8)]).fetch = ⟨0xFF#8, 0#8, 0#8⟩ ∧
    State.reset.fetch = ⟨0#8, 0#8, 0#8⟩ ∧ decode 0#8 0#8 0#8 = .unrecognized 0#8 := by decide

/-- A state of each run state. -/
theorem witness_StepExistsIffRunning :
    State.reset.runState = .running ∧ State.reset.enterHalted.runState = .halted ∧
    (State.reset.takeFault .indexFault 2#8).runState = .faulted := by decide

/-- A Jump, a Halt, a fault, a taken Beqz and one not taken, each from a Running state. -/
theorem witness_PcAfterStep :
    stepsTo (withInstr 0#8 1#8 0x08#8 [] 0x07#8 0xFF#8 0#8) (fun t => t.runState = .running) = true ∧
    stepsTo (withInstr 0#8 1#8 0x08#8 [] 0xFF#8 0#8 0#8) (fun t => t.runState = .halted) = true ∧
    stepsTo (withInstr 0#8 1#8 0x08#8 [] 0x00#8 0#8 0#8) (fun t => t.runState = .faulted) = true ∧
    stepsTo (withInstr 0#8 1#8 0xFF#8 [] 0x08#8 0#8 0xFF#8) (fun t => t.runState = .running) = true ∧
    (withInstr 0#8 1#8 0xFF#8 [] 0x08#8 0#8 0xFF#8).fetch = ⟨0x08#8, Reg.x0.index, 0xFF#8⟩ ∧
    (withInstr 0#8 1#8 0xFF#8 [] 0x08#8 0#8 0xFF#8).getReg .x0 = 0#8 ∧
    stepsTo (withInstr 0#8 1#8 0xFF#8 [] 0x08#8 1#8 0xFF#8) (fun t => t.runState = .running) = true ∧
    (withInstr 0#8 1#8 0xFF#8 [] 0x08#8 1#8 0xFF#8).getReg .x1 ≠ 0#8 := by decide

theorem witness_StepWritesAtMostOneCellOrRegister :
    ∃ s t s' t' : State, step s = .next t ∧ s.fetch.op = 0x02#8 ∧ (0x06#8 : Byte) ≠ s.fetch.b2 ∧
      step s' = .next t' ∧ s'.fetch.op ≠ 0x02#8 :=
  ⟨withInstr 9#8 0#8 0x08#8 [] 0x02#8 0#8 0x07#8, _, withInstr 9#8 0#8 0x08#8 [] 0x03#8 0#8 0#8, _,
    rfl, by decide, by decide, rfl, by decide⟩

/-- Two states that differ in a cell the Load at the pc does not read. -/
theorem witness_StepDependsOnlyOnWhatItReads :
    ∃ s s' t : State, s.mem ≠ s'.mem ∧ s.mem.wf ∧ s'.mem.wf ∧ s.SameRegs s' ∧ s.SameStatus s' ∧
      s'.pc = s.pc ∧ s'.fetch = s.fetch ∧ s.fetch.op = 0x01#8 ∧
      s'.readByte s.fetch.b2 = s.readByte s.fetch.b2 ∧ step s = .next t ∧
      s'.readByte 0x80#8 = s.readByte 0x80#8 :=
  ⟨withInstr 9#8 0#8 0x08#8 [] 0x01#8 0#8 0x07#8, withInstr 9#8 0#8 0x08#8 [(255, 1#8)] 0x01#8 0#8 0x07#8, _,
    by decide, by decide, by decide, fun _ => rfl, ⟨rfl, rfl⟩, rfl, by decide, by decide, by decide, rfl,
    by decide⟩

/-- The top address of the data region. -/
theorem witness_StoreCopiesRegisterToCell :
    State.reset.mem.wf ∧ (0x07#8 : Byte).toNat ≤ 0x07 ∧ (0x06#8 : Byte) ≠ 0x07#8 := by decide

theorem witness_JumpSetsPcToAddress :
    (withInstr 0#8 0#8 0xFF#8 [] 0x07#8 0xFF#8 0#8).runState = .running ∧
    (withInstr 0#8 0#8 0xFF#8 [] 0x07#8 0xFF#8 0#8).fetch.op = 0x07#8 ∧
    (withInstr 0#8 0#8 0xFF#8 [] 0x07#8 0xFF#8 0#8).fetch.b1 =
      (withInstr 0#8 0#8 0xFF#8 [] 0x07#8 0xFF#8 0#8).pc := by decide

theorem witness_BeqzLandsAtOffsetPlusThree :
    State.reset.getReg .x1 = 0x00#8 ∧ (at_ 0x80#8 0#8 0#8 []).getReg .x0 ≠ 0x00#8 := by decide

theorem witness_BeqzToItselfRunsForever :
    (withInstr 0#8 0#8 0xFE#8 [] 0x08#8 1#8 0xFD#8).runState = .running ∧
    (withInstr 0#8 0#8 0xFE#8 [] 0x08#8 1#8 0xFD#8).fetch = ⟨0x08#8, Reg.x1.index, 0xFD#8⟩ ∧
    (withInstr 0#8 0#8 0xFE#8 [] 0x08#8 1#8 0xFD#8).getReg .x1 = 0x00#8 := by decide

/-- A well-formed and an ill-formed instruction of the group, both with a next state. -/
theorem witness_RegisterWritersFrame :
    ∃ t t' : State, exec (.add 0#8 1#8) State.reset = .next t ∧
      exec (.add 0#8 2#8) State.reset = .next t' ∧ Reg.x1.index ≠ 0#8 ∧
      Instr.add 0#8 1#8 ∈ [Instr.load 0#8 1#8, Instr.add 0#8 1#8, Instr.sub 0#8 1#8,
        Instr.addi 0#8 1#8, Instr.subi 0#8 1#8] ∧
      (Instr.add 0#8 1#8).wellFormed = true ∧ (Instr.add 0#8 2#8).wellFormed = false :=
  ⟨_, _, rfl, rfl, by decide, by decide, by decide, by decide⟩

theorem witness_StoreFrame :
    ∃ t t' : State, exec (.store 1#8 7#8) State.reset = .next t ∧
      exec (.store 1#8 8#8) State.reset = .next t' ∧ (0#8 : Byte) ≠ 7#8 ∧
      (Instr.store 1#8 7#8).wellFormed = true ∧ (Instr.store 1#8 8#8).wellFormed = false :=
  ⟨_, _, rfl, rfl, by decide, by decide, by decide⟩

theorem witness_ControlFrame :
    ∃ t t' t'' : State, exec (.jump 0xFF#8) State.reset = .next t ∧
      exec (.beqz 2#8 0#8) State.reset = .next t' ∧ exec .halt State.reset = .next t'' ∧
      Instr.jump 0xFF#8 ≠ .halt ∧ (Instr.jump 0xFF#8).wellFormed = true ∧
      (Instr.beqz 2#8 0#8).wellFormed = false :=
  ⟨_, _, _, rfl, rfl, rfl, by decide, by decide, by decide⟩

/-- 0x00, 0x09 and 0xFE fetched in a Running state, and the fault taken on them. -/
theorem witness_UnrecognizedOpcodeAlwaysFaults :
    ∀ op ∈ [0x00#8, 0x09#8, 0xFE#8],
      (withInstr 0#8 0#8 8#8 [] op 1#8 2#8).runState = .running ∧
      (withInstr 0#8 0#8 8#8 [] op 1#8 2#8).fault = none ∧
      (withInstr 0#8 0#8 8#8 [] op 1#8 2#8).fetch.op = op ∧
      faultsWith (withInstr 0#8 0#8 8#8 [] op 1#8 2#8) .unrecognizedOpcode op = true := by decide

/-- The lowest and the highest invalid index. -/
theorem witness_InvalidRegisterIndexFaults :
    2 ≤ (0x02#8 : Byte).toNat ∧ 2 ≤ (0xFF#8 : Byte).toNat := by decide

/-- The lowest and the highest address a Store may not write. -/
theorem witness_StoreAboveDataRegionFaults :
    0x07 < (0x08#8 : Byte).toNat ∧ 0x07 < (0xFF#8 : Byte).toNat := by decide

/-- Each check failing first in turn, at the boundary of its range, and none. -/
theorem witness_FirstFailingCheckIsRecorded :
    faultsWith (withInstr 0#8 0#8 8#8 [] 0x09#8 2#8 8#8) .unrecognizedOpcode 9#8 = true ∧
    faultsWith (withInstr 0#8 0#8 8#8 [] 0x08#8 2#8 8#8) .indexFault 2#8 = true ∧
    faultsWith (withInstr 0#8 0#8 8#8 [] 0x04#8 1#8 2#8) .indexFault 2#8 = true ∧
    faultsWith (withInstr 0#8 0#8 8#8 [] 0x02#8 1#8 8#8) .invalidMemoryAccess 8#8 = true ∧
    stepsTo (withInstr 0#8 0#8 8#8 [] 0x07#8 2#8 8#8) (fun t => t.fault = none) = true ∧
    (withInstr 0#8 0#8 8#8 [] 0x07#8 2#8 8#8).runState = .running ∧
    (withInstr 0#8 0#8 8#8 [] 0x07#8 2#8 8#8).fault = none := by decide

theorem witness_FaultsArePrecise :
    State.reset.runState = .running ∧
    stepsTo State.reset (fun t => t.runState = .faulted) = true := by decide

theorem witness_WellFormedIffNoFault :
    State.reset.runState = .running ∧ (Instr.store 1#8 7#8).wellFormed = true ∧
    (Instr.store 1#8 8#8).wellFormed = false := by decide

/-- Steps to each run state, and an ended state. -/
theorem witness_RunStateTransitions :
    stepsTo (withInstr 0#8 0#8 8#8 [] 0xFF#8 0#8 0#8) (fun t => t.runState = .halted) = true ∧
    stepsTo (withInstr 0#8 0#8 8#8 [] 0x06#8 2#8 0#8) (fun t => t.runState = .faulted) = true ∧
    stepsTo (withInstr 0#8 0#8 8#8 [] 0x07#8 2#8 0#8) (fun t => t.runState = .running) = true ∧
    (withInstr 0#8 0#8 8#8 [] 0x07#8 2#8 0#8).runState = .running ∧
    State.reset.enterHalted.runState = .halted := by decide

theorem witness_EndedStatesAreLeftByResetOnly :
    State.reset.enterHalted.Ended ∧ (State.reset.takeFault .indexFault 2#8).Ended ∧
    ∃ c : Block, (Block.mk State.reset.enterHalted true).move (.write 0xFF#8 1#8) = some c :=
  ⟨.inl rfl, .inr rfl, _, rfl⟩

theorem witness_ReadSeesLastWrite : (at_ 0#8 0#8 0#8 [(0, 1#8), (255, 2#8)]).mem.wf := by decide

theorem witness_EqualContentsEqualMemory :
    ∃ m m' : Memory, m.wf ∧ m'.wf ∧ ∀ a : Byte, m.read a = m'.read a :=
  ⟨[(255, 1#8)], Memory.write [] 255#8 1#8, by decide, by decide, fun _ => rfl⟩

theorem witness_StoreVisibleToNextFetch :
    ∃ t : State, (at_ 9#8 0#8 0x02#8 []).mem.wf ∧ (0x05#8 : Byte).toNat ≤ 7 ∧
      exec (.store Reg.x0.index 0x05#8) (at_ 9#8 0#8 0x02#8 []) = .next t ∧ t.pc = 0x05#8 ∧
      t.fetch.op = 9#8 :=
  ⟨_, by decide, by decide, rfl, by decide, by decide⟩

/-- The lowest and the highest address of the instruction region. -/
theorem witness_InstructionRegionNeverChanges :
    0x08 ≤ (0x08#8 : Byte).toNat ∧ 0x08 ≤ (0xFF#8 : Byte).toNat := by decide

theorem witness_StepKeepsInvariant :
    State.reset.Inv ∧ stepsTo State.reset (fun t => t.runState = .faulted) = true := by decide

theorem witness_ResetAndHostKeepInvariant :
    Memory.wf [(7, 1#8)] ∧ Block.Inv ⟨State.reset.enterHalted, true⟩ ∧
    (Block.mk State.reset.enterHalted true).move .reset = some ⟨State.reset, true⟩ ∧
    (Block.mk State.reset.enterHalted true).move (.write 0xFF#8 1#8) =
      some ⟨{ State.reset.enterHalted with mem := [(255, 1#8)] }, true⟩ ∧
    Block.Inv ⟨State.reset, true⟩ ∧
    (Block.mk State.reset true).move .core =
      some ⟨State.reset.takeFault .unrecognizedOpcode 0#8, true⟩ := by decide

theorem witness_ResetLeavesStatedValues : (at_ 1#8 2#8 3#8 []).mem = [] := by decide

/-- An instruction and an unrecognized opcode at the entry point. -/
theorem witness_FirstInstructionIsAtEntryPoint :
    (at_ 1#8 2#8 3#8 [(8, 7#8), (9, 0xFE#8)]).readByte 8#8 = 7#8 ∧
    decode 7#8 0xFE#8 0#8 = .instr (.jump 0xFE#8) ∧
    (at_ 1#8 2#8 3#8 []).readByte 8#8 = 0#8 ∧ decode 0#8 0#8 0#8 = .unrecognized 0#8 := by decide

theorem witness_RunsComposeAndStayEnded :
    (∃ t : State, step State.reset = .next t) ∧
    (∀ t : State, step State.reset.enterHalted ≠ .next t) ∧ (runFor 1 State.reset).Ended :=
  have stops : step State.reset.enterHalted = .fault .noStepHalted := rfl
  ⟨⟨_, rfl⟩, fun t h => (by rw [stops] at h; cases h), .inr (by decide)⟩

theorem witness_HostLoadPlacesImage : Memory.wf [(8, 0xFF#8)] ∧ (0x09#8 : Byte) ≠ 0x08#8 := by decide

/-- A state of each run state, the faulted one with each kind of record, and a block before the first
reset beside one after the run. -/
theorem witness_HostActsOnlyOutsideRuns :
    State.reset.runState = .running ∧ State.reset.enterHalted.runState = .halted ∧
    hostMayAct (.powerUp State.reset) = true ∧ hostMayAct ⟨State.reset.enterHalted, true⟩ = true ∧
    ∀ k ∈ [FaultKind.invalidMemoryAccess, .unrecognizedOpcode, .indexFault],
      (State.reset.takeFault k 9#8).runState = .faulted ∧
      (State.reset.takeFault k 9#8).fault = some ⟨k, 9#8⟩ := by decide

end Sys2Proof.Tests
end

namespace Sys2Proof.Encoding

open Sys2Proof.Machine

/-! ### The opcode map (30_encoding.md R36) -/

/-- The bytes of a 24-bit table word are its three byte fields (R33). -/
theorem tableBytes_eq_fields (w : BitVec 24) :
    tableBytes 24 w.toNat = ⟨w.extractLsb' 16 8, w.extractLsb' 8 8, w.extractLsb' 0 8⟩ := by
  rw [tableBytes, Nat.mod_eq_of_lt w.isLt]
  simp [BitVec.extractLsb', Nat.shiftRight_eq_div_pow]

/-- The opcode mask keeps the opcode field whole, so a word that meets a match has its opcode. -/
theorem opcodeField_eq_of_match {w m : BitVec 24} (h : w &&& 0xFF0000#24 = m) :
    w.extractLsb' 16 8 = m.extractLsb' 16 8 := by
  have mask : (0xFF0000#24).extractLsb' 16 8 = BitVec.allOnes 8 := by decide
  rw [← h, BitVec.extractLsb'_and, mask, BitVec.and_allOnes]

/-- A word that meets a match decodes to what the match's opcode and the word's operand fields
decode to: the operand bits play no part in the selection. -/
theorem decodeTableWord_of_match {w m : BitVec 24} {i : Instr} (h : w &&& 0xFF0000#24 = m)
    (hd : decode (m.extractLsb' 16 8) (w.extractLsb' 8 8) (w.extractLsb' 0 8) = .instr i) :
    decodeTableWord 24 w.toNat = some i := by
  simp [decodeTableWord, decodeInstr, tableBytes_eq_fields, opcodeField_eq_of_match h, hd]

/-- The opcode bytes outside the map name no instruction (R38). -/
theorem decode_unrecognized {op : Byte} (h : op.toNat = 0 ∨ (9 ≤ op.toNat ∧ op.toNat ≤ 0xFE))
    (b1 b2 : Byte) : decode op b1 b2 = .unrecognized op := by
  rcases decode_cases op b1 b2 with
    ⟨ho, _⟩ | ⟨ho, _⟩ | ⟨ho, _⟩ | ⟨ho, _⟩ | ⟨ho, _⟩ | ⟨ho, _⟩ | ⟨ho, _⟩ | ⟨ho, _⟩ | ⟨ho, _⟩ | ⟨_, hd⟩
  iterate 9 · omega
  · exact hd

/-- Settles O1: the nine rows by computing `decode` on the row's opcode, the other bytes by the
decoder's case list, and the match/mask column by reducing each word to its opcode field. -/
theorem opcodeByteSelectsInstruction : Obligations.OpcodeByteSelectsInstruction := by
  refine ⟨fun b1 b2 => ?opcodeBytes, fun w => ?matchedWords⟩
  case opcodeBytes =>
    exact ⟨rfl, rfl, rfl, rfl, rfl, rfl, rfl, rfl, rfl, fun _ h => decode_unrecognized h b1 b2⟩
  case matchedWords =>
    refine ⟨?_, ?_, ?_, ?_, ?_, ?_, ?_, ?_, ?_⟩ <;> exact fun h => decodeTableWord_of_match h rfl

end Sys2Proof.Encoding

namespace Sys2Proof.Cycle

open Sys2Proof.Machine

/-! ### Dispatch is on the opcode byte alone (40_cycle.md R44) -/

/-- Bytes that decode to an instruction begin with that instruction's opcode (30_encoding.md R36). -/
theorem opcode_eq_of_decode {op b1 b2 : Byte} {i : Instr} (h : decode op b1 b2 = .instr i) :
    op = (encode i).op := by
  rcases decode_cases op b1 b2 with
    ⟨ho, hd⟩ | ⟨ho, hd⟩ | ⟨ho, hd⟩ | ⟨ho, hd⟩ | ⟨ho, hd⟩ | ⟨ho, hd⟩ | ⟨ho, hd⟩ | ⟨ho, hd⟩ | ⟨ho, hd⟩ | ⟨_, hd⟩
  iterate 9
    · cases hd.symm.trans h
      exact BitVec.eq_of_toNat_eq ho
  · cases hd.symm.trans h

/-- An instruction's opcode selects its mnemonic before any operand bytes: the nine per-instruction
laws in one. -/
theorem decode_encode_op_mnemonic (i : Instr) : Laws.OpcodeAlone.Statement i := by
  cases i with
  | load reg addr => exact Laws.OpcodeAlone.load reg addr
  | store reg addr => exact Laws.OpcodeAlone.store reg addr
  | add regA regB => exact Laws.OpcodeAlone.add regA regB
  | sub regA regB => exact Laws.OpcodeAlone.sub regA regB
  | addi reg imm => exact Laws.OpcodeAlone.addi reg imm
  | subi reg imm => exact Laws.OpcodeAlone.subi reg imm
  | jump addr => exact Laws.OpcodeAlone.jump addr
  | beqz reg offset => exact Laws.OpcodeAlone.beqz reg offset
  | halt => exact Laws.OpcodeAlone.halt

/-- Settles O6: in a Running state the step is `runFetched`, whose two outcomes are its equations;
the operand clause goes through the opcode that the decoded instruction encodes to. -/
theorem stepRunsDecodedInstruction : Obligations.StepRunsDecodedInstruction := by
  refine ⟨fun s hr => ⟨fun i hd => ?decoded, fun op hd => ?unrecognized⟩,
    fun op b1 b2 c1 c2 i hd => ?operands⟩
  case decoded => exact (step_running hr).trans (runFetched_instr hd)
  case unrecognized => exact (step_running hr).trans (runFetched_unrecognized hd)
  case operands =>
    rw [opcode_eq_of_decode hd]
    exact decode_encode_op_mnemonic i c1 c2

end Sys2Proof.Cycle

namespace Sys2Proof.Arithmetic

open Sys2Proof.Machine

/-! ### The arithmetic law on bytes (42_arithmetic.md R52) -/

theorem sub8_toNat_int (a b : Byte) :
    ((sub8 a b).toNat : Int) = ((a.toNat : Int) - b.toNat) % 256 := by
  have := sub8_toNat a b
  omega

theorem add8_self_toNat (a : Byte) : (add8 a a).toNat = 2 * a.toNat % 256 := by
  rw [add8_toNat, Nat.two_mul]

theorem sub8_eq_add8_negated (a b : Byte) : sub8 a b = add8 a (sub8 0#8 b) := by
  rw [sub8, add8, sub8, BitVec.zero_sub, BitVec.sub_eq_add_neg]

/-! ### The two arithmetic formats at valid register indices (R53 to R56) -/

theorem withRegs_index (r q : Reg) (s : State) (k : Reg → Reg → Result) :
    withRegs r.index q.index s k = k r q := by
  rw [withRegs, withReg_index, withReg_index]

theorem arithRR_index (f : Byte → Byte → Byte) (r q : Reg) (s : State) :
    arithRR f r.index q.index s = .next (s.setReg r (f (s.getReg r) (s.getReg q))).advance :=
  withRegs_index r q s _

theorem arithRI_index (f : Byte → Byte → Byte) (r : Reg) (imm : Byte) (s : State) :
    arithRI f r.index imm s = .next (s.setReg r (f (s.getReg r) imm)).advance :=
  withReg_index r s _

/-- The frame of a register write followed by the generic epilogue. -/
theorem setReg_advance_onlyRegChanged (s : State) (r : Reg) (v : Byte) :
    s.OnlyRegChanged r (s.setReg r v).advance := by
  refine ⟨fun q hq => ?otherReg, fun a => ?cell, ?runState, ?fault⟩
  case otherReg => rw [advance_getReg, getReg_setReg_other s v hq]
  case cell => rw [advance_readByte, setReg_readByte]
  case runState => rw [advance_runState, setReg_runState]
  case fault => rw [advance_fault, setReg_fault]

/-- A meaning that writes `v` to register `r` and advances completes with that result alone. -/
theorem exists_next_onlyRegChanged {o : Result} {s : State} {r : Reg} {v : Byte}
    (h : o = .next (s.setReg r v).advance) :
    ∃ t, o = .next t ∧ t.getReg r = v ∧ s.OnlyRegChanged r t := by
  refine ⟨_, h, ?_, setReg_advance_onlyRegChanged s r v⟩
  rw [advance_getReg, getReg_setReg_same]

/-- Settles O12: the byte laws are those of 8-bit vectors, and each of the four instructions is one
of the two formats at valid indices, which writes its result to the one register and advances. -/
theorem arithmeticIsExactModulo256 : Obligations.ArithmeticIsExactModulo256 := by
  refine ⟨fun a b => ?laws, by decide, by decide, fun s r q imm => ?instructions⟩
  case laws =>
    exact ⟨add8_toNat a b, sub8_toNat_int a b, BitVec.toInt_add a b, BitVec.toInt_sub,
      BitVec.add_zero a, BitVec.sub_zero a, BitVec.sub_self a, add8_self_toNat a,
      BitVec.add_sub_cancel a b, sub8_eq_add8_negated a b⟩
  case instructions =>
    exact ⟨exists_next_onlyRegChanged (arithRR_index add8 r q s),
      exists_next_onlyRegChanged (arithRR_index sub8 r q s),
      exists_next_onlyRegChanged (arithRI_index add8 r imm s),
      exists_next_onlyRegChanged (arithRI_index sub8 r imm s)⟩

end Sys2Proof.Arithmetic

namespace Sys2Proof.ControlTransfer

open Sys2Proof.Machine

/-! ### A step that changes nothing, for any fuel (40_cycle.md R49) -/

theorem runFor_of_step_self {s : State} (h : step s = .next s) (n : Nat) : runFor n s = s := by
  induction n with
  | zero => exact runFor_zero s
  | succ n ih => rw [runFor_next h, ih]

/-! ### Jump (43_control_transfer.md R57) -/

@[simp] theorem setPc_self (s : State) : s.setPc s.pc = s := rfl

theorem decode_jump (addr x : Byte) : decode 0x07#8 addr x = .instr (.jump addr) := rfl

/-- The frame of a pc write. -/
theorem setPc_frame (s : State) (t : Byte) :
    s.SameRegs (s.setPc t) ∧ s.SameMem (s.setPc t) ∧ s.SameStatus (s.setPc t) :=
  ⟨setPc_getReg s t, setPc_readByte s t, setPc_runState s t, setPc_fault s t⟩

theorem step_jump {s : State} (hr : s.runState = .running) (ho : s.fetch.op = 0x07#8) :
    step s = .next (s.setPc s.fetch.b1) := by
  have hd : decode s.fetch.op s.fetch.b1 s.fetch.b2 = .instr (.jump s.fetch.b1) := by
    rw [ho, decode_jump]
  rw [step_running hr, runFetched_instr hd, execJump_eq]

/-- A Jump to its own address writes to the pc the value it holds. -/
theorem step_jump_self {s : State} (hr : s.runState = .running) (ho : s.fetch.op = 0x07#8)
    (ha : s.fetch.b1 = s.pc) : step s = .next s := by
  rw [step_jump hr ho, ha, setPc_self]

/-- Settles O19: Jump is a pc write with the pc write's frame, and a Jump to its own address is a
step to the same state, which any fuel repeats. -/
theorem jumpSetsPcToAddress : Obligations.JumpSetsPcToAddress := by
  refine ⟨decode_jump, fun s addr => ?exec, fun s n hr ho ha => ?selfJump⟩
  case exec => exact ⟨s.setPc addr, execJump_eq addr s, setPc_pc s addr, setPc_frame s addr⟩
  case selfJump =>
    have hs : step s = .next s := step_jump_self hr ho ha
    exact ⟨hs, runFor_of_step_self hs n⟩

end Sys2Proof.ControlTransfer

namespace Sys2Proof.Exceptions

open Sys2Proof.Machine

/-! ### The unrecognized-opcode fault (60_exceptions.md R64) -/

theorem step_unrecognized {s : State} (hr : s.runState = .running)
    (ho : s.fetch.op.toNat = 0 ∨ (9 ≤ s.fetch.op.toNat ∧ s.fetch.op.toNat ≤ 0xFE)) :
    step s = .next (s.takeFault .unrecognizedOpcode s.fetch.op) :=
  (step_running hr).trans (runFetched_unrecognized (Encoding.decode_unrecognized ho _ _))

/-- What a step does to the fault record: it keeps it, or takes the unrecognized-opcode fault on an
opcode byte outside the map, or takes a fault of another kind. -/
theorem step_fault_cases {s t : State} (h : step s = .next t) :
    t.fault = s.fault ∨
      ((s.fetch.op.toNat = 0 ∨ (9 ≤ s.fetch.op.toNat ∧ s.fetch.op.toNat ≤ 0xFE)) ∧
        t = s.takeFault .unrecognizedOpcode s.fetch.op) ∨
      (∃ (k : FaultKind) (d : Byte), k ≠ .unrecognizedOpcode ∧ t = s.takeFault k d) := by
  cases step_kind (running_of_step h) h with
  | load r _ _ ht | store r _ _ _ ht | rr r q v _ _ _ ht | ri r v _ _ ht | jump _ ht
  | taken r _ _ _ ht | notTaken r _ _ _ ht | halt _ ht => exact .inl (by simp [ht])
  | unrec ho ht => exact .inr (.inl ⟨ho, ht⟩)
  | idx1 _ _ ht | idx2 _ _ _ ht | addr r _ _ _ ht => exact .inr (.inr ⟨_, _, by decide, ht⟩)

/-- From an empty record, a step that records the unrecognized-opcode fault took it, on an opcode
byte outside the map. -/
theorem eq_takeFault_of_unrecognized_recorded {s t : State} {d : Byte} (hf : s.fault = none)
    (h : step s = .next t) (ht : t.fault = some ⟨.unrecognizedOpcode, d⟩) :
    (s.fetch.op.toNat = 0 ∨ (9 ≤ s.fetch.op.toNat ∧ s.fetch.op.toNat ≤ 0xFE)) ∧
      t = s.takeFault .unrecognizedOpcode s.fetch.op := by
  rcases step_fault_cases h with hkept | htaken | ⟨k, e, hk, rfl⟩
  · rw [hkept, hf] at ht
    cases ht
  · exact htaken
  · cases ht
    exact absurd rfl hk

/-- Settles O26: the opcode bytes outside the map take the fault, and a step that records it from an
empty record can be no other. -/
theorem unrecognizedOpcodeAlwaysFaults : Obligations.UnrecognizedOpcodeAlwaysFaults := by
  refine fun s hr hf => ⟨⟨fun ho => ?taken, fun ⟨t, d, h, ht⟩ => ?onlyThere⟩, fun t d h ht => ?record⟩
  case taken => exact ⟨_, _, step_unrecognized hr ho, takeFault_fault s _ _⟩
  case onlyThere => exact (eq_takeFault_of_unrecognized_recorded hf h ht).1
  case record =>
    obtain ⟨_, rfl⟩ := eq_takeFault_of_unrecognized_recorded hf h ht
    cases ht
    exact ⟨rfl, takeFault_runState s _ _⟩

/-! ### No return from a fault and no nesting (60_exceptions.md R70) -/

theorem step_ne_next_of_ended {s : State} (he : s.Ended) (t : State) : step s ≠ .next t := by
  intro h
  have hr := running_of_step h
  rcases he with he | he <;> cases hr.symm.trans he

/-- The loop stays where no step exists (40_cycle.md R49). -/
theorem runFor_of_no_step {s : State} (h : ∀ t, step s ≠ .next t) (n : Nat) : runFor n s = s := by
  cases n with
  | zero => exact runFor_zero s
  | succ n =>
    rw [runFor]
    split
    · exact absurd ‹_› (h _)
    · rfl
    · rfl

/-- On an ended run, a move that is allowed is the reset or a host write. -/
theorem move_of_ended {s : State} {w : Bool} {mv : Move} {c : Block} (he : s.Ended)
    (h : (Block.mk s w).move mv = some c) :
    mv = .reset ∨ ∃ a v, c = ⟨s.writeByte a v, w⟩ := by
  rcases move_cases h with ⟨a, v, -, -, hc⟩ | ⟨hmv, -⟩ | ⟨-, -, -, hs⟩
  · exact .inr ⟨a, v, hc⟩
  · exact .inl hmv
  · exact absurd hs (step_ne_next_of_ended he _)

theorem hostReset_of_ended {s : State} (w : Bool) (he : s.Ended) :
    hostReset ⟨s, w⟩ = some ⟨s.applyReset, true⟩ := by
  simp [hostReset, hostMayAct_ended w he]

/-- Settles O33: an ended state has no step, so the loop stays and the moves left are the host's, of
which a write touches memory alone and reset begins a new run. -/
theorem endedStatesAreLeftByResetOnly : Obligations.EndedStatesAreLeftByResetOnly := by
  refine fun s he => ⟨step_ne_next_of_ended he, runFor_of_no_step (step_ne_next_of_ended he),
    fun mv c h => ?moves, ?reset⟩
  case moves =>
    rcases move_of_ended he h with hmv | ⟨a, v, rfl⟩
    · exact .inl hmv
    · exact .inr ⟨⟨writeByte_runState s a v, writeByte_fault s a v⟩, writeByte_pc s a v, rfl⟩
  case reset => exact ⟨s.applyReset, hostReset_of_ended true he, rfl, rfl, rfl, rfl⟩

end Sys2Proof.Exceptions

namespace Sys2Proof.ResetAndHost

open Sys2Proof.Machine

/-! ### The entry point (70_reset_and_hazards.md R73, R74) -/

@[simp] theorem applyReset_pc (s : State) : s.applyReset.pc = 0x08#8 := rfl

@[simp] theorem applyReset_readByte (s : State) (a : Byte) : s.applyReset.readByte a = s.readByte a := rfl

/-- Reset puts the pc at the entry point and leaves memory, so the bytes fetched next are those
already there. -/
theorem applyReset_fetch (s : State) :
    s.applyReset.fetch = ⟨s.readByte 0x08#8, s.readByte 0x09#8, s.readByte 0x0A#8⟩ := by
  have b1Addr : add8 0x08#8 0x01#8 = 0x09#8 := by decide
  have b2Addr : add8 0x08#8 0x02#8 = 0x0A#8 := by decide
  simp [State.fetch, b1Addr, b2Addr]

/-- Settles O42: reset leaves a Running state that fetches the entry point's three bytes, and a step
of a Running state runs what its fetched bytes decode to. -/
theorem firstInstructionIsAtEntryPoint : Obligations.FirstInstructionIsAtEntryPoint := by
  intro s
  obtain ⟨runsDecoded, -⟩ := Cycle.stepRunsDecodedInstruction
  have first := runsDecoded s.applyReset (applyReset_runState s)
  rwa [applyReset_fetch] at first

end Sys2Proof.ResetAndHost

namespace Sys2Proof.Encoding

open Sys2Proof.Machine

/-! ### Decoding and encoding (30_encoding.md R41) -/

theorem decode_encode (i : Instr) : decode (encode i).op (encode i).b1 (encode i).b2 = .instr i := by
  cases i <;> rfl

/-- After an instruction's own opcode byte, the operand bytes that give the instruction back are its
own, but for the ignored bytes of Jump and Halt (R37). -/
theorem decode_encode_op_iff (i : Instr) (b1 b2 : Byte) :
    decode (encode i).op b1 b2 = .instr i ↔
      (i = .halt ∨ b1 = (encode i).b1) ∧ (i = .halt ∨ (∃ a, i = .jump a) ∨ b2 = (encode i).b2) := by
  cases i with
  | load | store | add | sub | addi | subi | beqz =>
    simp [encode, decode, opLoad, opStore, opAdd, opSub, opAddi, opSubi, opJump, opBeqz]
  | jump addr => simp [encode, decode, opLoad, opStore, opAdd, opSub, opAddi, opSubi, opJump]
  | halt => exact iff_of_true rfl ⟨.inl rfl, .inl rfl⟩

/-- Settles O2: bytes that decode to an instruction begin with its opcode, and after that opcode only
the ignored bytes are free. -/
theorem decodeAndEncodeAgree : Obligations.DecodeAndEncodeAgree := by
  refine ⟨decode_encode, fun op b1 b2 i => ⟨fun h => ?decodes, fun ⟨ho, hb⟩ => ?encodes⟩⟩
  case decodes =>
    obtain rfl := Cycle.opcode_eq_of_decode h
    exact ⟨rfl, (decode_encode_op_iff i b1 b2).mp h⟩
  case encodes =>
    rw [ho]
    exact (decode_encode_op_iff i b1 b2).mpr hb

/-- Settles O3: each word is decoded by computation. -/
theorem sampleWordsDecode : Obligations.SampleWordsDecode := by
  unfold Obligations.SampleWordsDecode
  decide

/-- Settles O4: the nine per-instruction laws, gathered by cases on the instruction. -/
theorem mnemonicFromOpcodeAlone : Obligations.MnemonicFromOpcodeAlone :=
  Cycle.decode_encode_op_mnemonic

end Sys2Proof.Encoding

namespace Sys2Proof.MemoryCells

open Sys2Proof.Machine

/-! ### A read after a write (20_memory.md R25, R28) -/

theorem readByte_writeByte {s : State} (a v b : Byte) (h : s.mem.wf) :
    (s.writeByte a v).readByte b = if b = a then v else s.readByte b := by
  split
  · next hb => rw [hb, readByte_writeByte_same a v h]
  · next hb => exact readByte_writeByte_other s v hb

/-- Settles O34: the read-after-write law, with the frame of a cell write. -/
theorem readSeesLastWrite : Obligations.ReadSeesLastWrite :=
  fun s a v b h => ⟨readByte_writeByte a v b h, write_wf a v h, getReg_writeByte s a v,
    ⟨writeByte_runState s a v, writeByte_fault s a v⟩, writeByte_pc s a v⟩

/-! ### Canonical memories and images of 256 bytes -/

/-- The reads of a canonical memory say which cells it lists: those that read as what they list, and
not as an unlisted cell does. -/
theorem mem_iff_read {m : Memory} (h : m.wf) (c : Host.Cell) :
    c ∈ m ↔ c.2 ≠ Config.unlistedByte ∧ ∃ a : Byte, a.toNat = c.1 ∧ m.read a = c.2 := by
  obtain ⟨n, v⟩ := c
  obtain ⟨rising, listed⟩ := h
  constructor
  · intro hc
    obtain ⟨hn, hv⟩ := listed _ hc
    have addr : (BitVec.ofNat 8 n).toNat = n := Nat.mod_eq_of_lt hn
    exact ⟨hv, BitVec.ofNat 8 n, addr, by rw [Memory.read, addr, lookup_of_mem rising hc]⟩
  · rintro ⟨hv, a, rfl, rfl⟩
    exact mem_of_lookup hv

/-- Settles O35: canonical memories that read the same list the same cells, and a strictly rising list
is determined by its cells. -/
theorem equalContentsEqualMemory : Obligations.EqualContentsEqualMemory := by
  intro m m' h h' hread
  have : Std.Irrefl fun c d : Host.Cell => c.1 < d.1 := ⟨fun c => lt_irrefl c.1⟩
  have : Std.Antisymm fun c d : Host.Cell => c.1 < d.1 := ⟨fun _ _ hcd hdc => absurd hcd hdc.asymm⟩
  refine h.1.eq_of_mem_iff h'.1 fun c => ?_
  simp only [mem_iff_read h, mem_iff_read h', hread]

/-- Writes that all give cells the bytes of the image `f` leave a cell reading as `f` there, when one
of them is to that cell or the memory read so before. -/
theorem read_writeAll_of_image (f : Byte → Byte) (a : Byte) (ws : List Byte) (m : Memory) (h : m.wf)
    (ha : a ∈ ws ∨ m.read a = f a) : (writeAll (ws.map fun b => (b, f b)) m).read a = f a := by
  induction ws generalizing m with
  | nil => exact ha.resolve_left List.not_mem_nil
  | cons b ws ih =>
    refine ih _ (write_wf b (f b) h) ?_
    by_cases hab : a = b
    · exact .inr (hab ▸ read_write_same a (f a) h)
    · rw [read_write_other m (f b) hab]
      exact ha.imp_left fun hmem => (List.mem_cons.mp hmem).resolve_left hab

/-- Every address, once. -/
def allAddresses : List Byte := (List.finRange 256).map BitVec.ofFin

theorem mem_allAddresses (a : Byte) : a ∈ allAddresses :=
  List.mem_map.mpr ⟨a.toFin, List.mem_finRange _, rfl⟩

/-- Settles O36: the image is written cell by cell over a memory that lists nothing. -/
theorem everyImageIsAMemory : Obligations.EveryImageIsAMemory := by
  intro f
  have empty : Memory.wf [] := reset_mem_wf
  exact ⟨writeAll (allAddresses.map fun b => (b, f b)) [], writeAll_wf _ _ empty,
    fun a => read_writeAll_of_image f a allAddresses [] empty (.inl (mem_allAddresses a))⟩

/-! ### Fetching what was written (20_memory.md R30) -/

theorem ne_add8_one (p : Byte) : p ≠ add8 p 0x01#8 := by unfold add8; bv_omega

theorem ne_add8_two (p : Byte) : p ≠ add8 p 0x02#8 := by unfold add8; bv_omega

theorem add8_one_ne_add8_two (p : Byte) : add8 p 0x01#8 ≠ add8 p 0x02#8 := by unfold add8; bv_omega

@[simp] theorem placeBytes_runState (s : State) (w : InstrBytes) :
    (s.placeBytes w).runState = s.runState := rfl

@[simp] theorem placeBytes_fault (s : State) (w : InstrBytes) : (s.placeBytes w).fault = s.fault := rfl

@[simp] theorem placeBytes_pc (s : State) (w : InstrBytes) : (s.placeBytes w).pc = s.pc := rfl

@[simp] theorem placeBytes_getReg (s : State) (w : InstrBytes) (r : Reg) :
    (s.placeBytes w).getReg r = s.getReg r := by simp [State.placeBytes]

theorem placeBytes_readByte_other (s : State) (w : InstrBytes) {a : Byte} (h0 : a ≠ s.pc)
    (h1 : a ≠ add8 s.pc 0x01#8) (h2 : a ≠ add8 s.pc 0x02#8) :
    (s.placeBytes w).readByte a = s.readByte a := by
  rw [State.placeBytes, readByte_writeByte_other _ _ h2, readByte_writeByte_other _ _ h1,
    readByte_writeByte_other _ _ h0]

/-- The three addresses are distinct modulo 256, so the next fetch reads the bytes placed. -/
theorem fetch_placeBytes {s : State} (w : InstrBytes) (h : s.mem.wf) : (s.placeBytes w).fetch = w := by
  have h1 : (s.writeByte s.pc w.op).mem.wf := write_wf _ _ h
  have h2 : ((s.writeByte s.pc w.op).writeByte (add8 s.pc 0x01#8) w.b1).mem.wf := write_wf _ _ h1
  simp only [State.fetch, placeBytes_pc]
  simp [State.placeBytes, readByte_writeByte _ _ _ h, readByte_writeByte _ _ _ h1,
    readByte_writeByte _ _ _ h2, ne_add8_one, ne_add8_two, add8_one_ne_add8_two]

theorem decode_of_decodeInstr {w : InstrBytes} {i : Instr} (h : decodeInstr w = some i) :
    decode w.op w.b1 w.b2 = .instr i := by
  unfold decodeInstr at h
  split at h
  · next hd => rw [hd, Option.some.inj h]
  · cases h

/-- Settles O5: the placed bytes are the ones fetched, and they decode to the word's instruction. -/
theorem placedTableWordRuns : Obligations.PlacedTableWordRuns := by
  refine fun s w i hr hm hw => ⟨?runs, placeBytes_getReg s _,
    ⟨placeBytes_runState s _, placeBytes_fault s _⟩, placeBytes_pc s _,
    fun a h0 h1 h2 => placeBytes_readByte_other s _ h0 h1 h2⟩
  have fetched : (s.withFetchWord 24 w).fetch = tableBytes 24 w := fetch_placeBytes _ hm
  have running : (s.withFetchWord 24 w).runState = .running := (placeBytes_runState s _).trans hr
  rw [step_running running]
  apply runFetched_instr
  rw [fetched]
  exact decode_of_decodeInstr hw

/-- Settles O7: the three addresses by the modulo-256 law of `add8`. -/
theorem fetchWrapsModulo256 : Obligations.FetchWrapsModulo256 :=
  fun s => ⟨rfl, congrArg s.mem.lookup (add8_toNat s.pc 0x01#8),
    congrArg s.mem.lookup (add8_toNat s.pc 0x02#8)⟩

end Sys2Proof.MemoryCells

namespace Sys2Proof.Noninterference

open Sys2Proof.Machine

/-! ### States that agree, and what keeps the agreement (40_cycle.md R42, R43) -/

/-- The two states have the same registers, pc and status, and the same byte in each cell of `P`. -/
structure AgreeOn (P : Byte → Prop) (s s' : State) : Prop where
  regs : s.SameRegs s'
  status : s.SameStatus s'
  pc : s'.pc = s.pc
  cells : ∀ a, P a → s'.readByte a = s.readByte a

/-- Both results are next states, and these agree. -/
def NextAgreeOn (P : Byte → Prop) (o o' : Result) : Prop :=
  ∃ t t', o = .next t ∧ o' = .next t' ∧ AgreeOn P t t'

section
variable {P : Byte → Prop} {s s' : State}

theorem AgreeOn.next (h : AgreeOn P s s') : NextAgreeOn P (.next s) (.next s') := ⟨s, s', rfl, rfl, h⟩

theorem AgreeOn.setReg (h : AgreeOn P s s') (r : Reg) (v : Byte) :
    AgreeOn P (s.setReg r v) (s'.setReg r v) where
  regs q := by
    by_cases hq : q = r
    · rw [hq, getReg_setReg_same, getReg_setReg_same]
    · rw [getReg_setReg_other _ v hq, getReg_setReg_other _ v hq, h.regs q]
  status := by simpa [State.SameStatus] using h.status
  pc := by simpa using h.pc
  cells a ha := by simpa using h.cells a ha

theorem AgreeOn.setPc (h : AgreeOn P s s') (p : Byte) : AgreeOn P (s.setPc p) (s'.setPc p) where
  regs q := by simpa using h.regs q
  status := h.status
  pc := rfl
  cells := h.cells

theorem AgreeOn.advance (h : AgreeOn P s s') : AgreeOn P s.advance s'.advance := by
  rw [State.advance, State.advance, h.pc]
  exact h.setPc _

theorem AgreeOn.takeFault (h : AgreeOn P s s') (k : FaultKind) (d : Byte) :
    AgreeOn P (s.takeFault k d) (s'.takeFault k d) where
  regs q := by simpa using h.regs q
  status := ⟨rfl, rfl⟩
  pc := h.pc
  cells := h.cells

theorem AgreeOn.enterHalted (h : AgreeOn P s s') : AgreeOn P s.enterHalted s'.enterHalted where
  regs q := by simpa using h.regs q
  status := ⟨rfl, h.status.2⟩
  pc := h.pc
  cells := h.cells

theorem AgreeOn.writeByte (h : AgreeOn P s s') (hm : s.mem.wf) (hm' : s'.mem.wf) (a v : Byte) :
    AgreeOn P (s.writeByte a v) (s'.writeByte a v) where
  regs q := by simpa using h.regs q
  status := h.status
  pc := h.pc
  cells b hb := by
    rw [MemoryCells.readByte_writeByte a v b hm, MemoryCells.readByte_writeByte a v b hm', h.cells b hb]

/-- The same index byte names the same register of both states, or faults both. -/
theorem AgreeOn.withReg (h : AgreeOn P s s') (i : Byte) {k k' : Reg → Result}
    (hk : ∀ r, NextAgreeOn P (k r) (k' r)) : NextAgreeOn P (withReg i s k) (withReg i s' k') := by
  rcases index_cases i with ⟨r, rfl⟩ | hi
  · rw [withReg_index, withReg_index]
    exact hk r
  · rw [withReg_invalid hi, withReg_invalid hi]
    exact (h.takeFault .indexFault i).next

theorem AgreeOn.withDataAddr (h : AgreeOn P s s') (a : Byte) {k k' : Result} (hk : NextAgreeOn P k k') :
    NextAgreeOn P (withDataAddr a s k) (withDataAddr a s' k') := by
  unfold Machine.withDataAddr
  split
  · exact hk
  · exact (h.takeFault .invalidMemoryAccess a).next

theorem AgreeOn.arithRR (h : AgreeOn P s s') (f : Byte → Byte → Byte) (i j : Byte) :
    NextAgreeOn P (arithRR f i j s) (arithRR f i j s') := by
  refine h.withReg i fun r => h.withReg j fun q => ?_
  simp only [h.regs r, h.regs q]
  exact (h.setReg r _).advance.next

theorem AgreeOn.arithRI (h : AgreeOn P s s') (f : Byte → Byte → Byte) (i imm : Byte) :
    NextAgreeOn P (arithRI f i imm s) (arithRI f i imm s') := by
  refine h.withReg i fun r => ?_
  rw [h.regs r]
  exact (h.setReg r _).advance.next

/-- The meaning of an instruction depends on the registers, the pc, the status and, for a Load, the
cell at its address. -/
theorem AgreeOn.exec (h : AgreeOn P s s') (hm : s.mem.wf) (hm' : s'.mem.wf) (i : Instr)
    (hload : ∀ r a, i = .load r a → s'.readByte a = s.readByte a) :
    NextAgreeOn P (exec i s) (exec i s') := by
  cases i with
  | load reg addr =>
    refine h.withReg reg fun r => ?_
    rw [hload reg addr rfl]
    exact (h.setReg r _).advance.next
  | store reg addr =>
    refine h.withReg reg fun r => h.withDataAddr addr ?_
    rw [h.regs r]
    exact (h.writeByte hm hm' addr _).advance.next
  | add regA regB => exact h.arithRR add8 regA regB
  | sub regA regB => exact h.arithRR sub8 regA regB
  | addi reg imm => exact h.arithRI add8 reg imm
  | subi reg imm => exact h.arithRI sub8 reg imm
  | jump addr => exact (h.setPc addr).next
  | beqz reg offset =>
    refine h.withReg reg fun r => ?_
    rw [h.regs r, h.pc]
    split
    · exact (h.setPc _).advance.next
    · exact h.advance.next
  | halt => exact h.enterHalted.next

end

/-- Running states that agree and fetch the same bytes take steps to states that agree. -/
theorem step_agreeOn {P : Byte → Prop} {s s' : State} (h : AgreeOn P s s') (hr : s.runState = .running)
    (hm : s.mem.wf) (hm' : s'.mem.wf) (hfetch : s'.fetch = s.fetch)
    (hload : s.fetch.op = 0x01#8 → s'.readByte s.fetch.b2 = s.readByte s.fetch.b2) :
    NextAgreeOn P (step s) (step s') := by
  rw [step_running hr, step_running (h.status.1.trans hr), runFetched, runFetched, hfetch]
  split
  · next i hd =>
    refine h.exec hm hm' i fun r a hi => ?_
    subst hi
    have hop : s.fetch.op = 0x01#8 := Cycle.opcode_eq_of_decode hd
    rw [hop] at hd
    cases hd
    exact hload hop
  · next op _ => exact (h.takeFault .unrecognizedOpcode op).next

/-- Settles O11: the agreement is on the cells where the two states hold the same byte, and every
operation the step is made of keeps it. -/
theorem stepDependsOnlyOnWhatItReads : Obligations.StepDependsOnlyOnWhatItReads := by
  intro s s' t hm hm' hregs hstatus hpc hfetch hload h
  have agree : AgreeOn (fun a => s'.readByte a = s.readByte a) s s' :=
    ⟨hregs, hstatus, hpc, fun _ ha => ha⟩
  obtain ⟨u, t', hu, ht', hagree⟩ := step_agreeOn agree (running_of_step h) hm hm' hfetch hload
  cases h.symm.trans hu
  exact ⟨t', ht', hagree.regs, hagree.status, hagree.pc, hagree.cells⟩

end Sys2Proof.Noninterference

namespace Sys2Proof.InstructionEffect

open Sys2Proof.Machine

/-! ### The two outcomes of an instruction: it completes, or one of its checks takes a fault -/

/-- The result of an instruction run in `s`: where its checks pass (`ok`) it completes in a state that
meets `Q`, and where one fails it takes a fault and does nothing else. -/
inductive Outcome (ok : Bool) (Q : State → Prop) (s : State) (o : Result) : Prop
  | completes (t : State) (ho : o = .next t) (hok : ok = true) (hq : Q t)
  | faults (k : FaultKind) (d : Byte) (ho : o = .next (s.takeFault k d)) (hok : ok = false)

theorem indexInRange_index (r : Reg) : indexInRange r.index = true := by cases r <;> rfl

theorem indexInRange_of_two_le {i : Byte} (h : 2 ≤ i.toNat) : indexInRange i = false :=
  decide_eq_false (Nat.not_lt.mpr h)

section
variable {ok : Bool} {Q : State → Prop} {s : State}

theorem Outcome.mono {Q' : State → Prop} {o : Result} (h : Outcome ok Q s o) (hQ : ∀ t, Q t → Q' t) :
    Outcome ok Q' s o := by
  cases h with
  | completes t ho hok hq => exact .completes t ho hok (hQ t hq)
  | faults k d ho hok => exact .faults k d ho hok

/-- A register operand adds its index check to the checks of what follows it. -/
theorem withReg_outcome {i : Byte} {k : Reg → Result}
    (hk : ∀ r : Reg, i = r.index → Outcome ok Q s (k r)) :
    Outcome (indexInRange i && ok) Q s (withReg i s k) := by
  rcases withReg_cases i s k with ⟨r, hi, h⟩ | ⟨hi, h⟩
  · rw [h, hi, indexInRange_index, Bool.true_and]
    exact hk r hi
  · rw [indexInRange_of_two_le hi, Bool.false_and]
    exact .faults _ _ h rfl

/-- Store's address operand adds its check. -/
theorem withDataAddr_outcome {a : Byte} {k : Result} (hk : Outcome ok Q s k) :
    Outcome (inDataRegion a && ok) Q s (withDataAddr a s k) := by
  have top : Config.dataTop.toNat = 7 := rfl
  rcases withDataAddr_cases a s k with ⟨ha, h⟩ | ⟨ha, h⟩
  · have pass : inDataRegion a = true := decide_eq_true (by omega)
    rwa [h, pass, Bool.true_and]
  · have fail : inDataRegion a = false := decide_eq_false (by omega)
    rw [fail, Bool.false_and]
    exact .faults _ _ h rfl

end

/-- `t` is `s` with a byte written to the register of index `i` and the pc moved on. -/
def RegWritten (i : Byte) (s t : State) : Prop :=
  ∃ r : Reg, i = r.index ∧ ∃ v, t = (s.setReg r v).advance

theorem RegWritten.sameStatus {i : Byte} {s t : State} (h : RegWritten i s t) : s.SameStatus t := by
  obtain ⟨r, -, v, rfl⟩ := h
  obtain ⟨-, -, hstatus⟩ := Arithmetic.setReg_advance_onlyRegChanged s r v
  exact hstatus

theorem arithRR_outcome (f : Byte → Byte → Byte) (i j : Byte) (s : State) :
    Outcome (indexInRange i && indexInRange j) (RegWritten i s) s (arithRR f i j s) := by
  refine withReg_outcome fun r hr => ?_
  rw [← Bool.and_true (indexInRange j)]
  exact withReg_outcome fun q _ => .completes _ rfl rfl ⟨r, hr, _, rfl⟩

theorem arithRI_outcome (f : Byte → Byte → Byte) (i imm : Byte) (s : State) :
    Outcome (indexInRange i) (RegWritten i s) s (arithRI f i imm s) := by
  rw [← Bool.and_true (indexInRange i)]
  exact withReg_outcome fun r hr => .completes _ rfl rfl ⟨r, hr, _, rfl⟩

theorem execLoad_outcome (i a : Byte) (s : State) :
    Outcome (indexInRange i) (RegWritten i s) s (exec (.load i a) s) := by
  rw [← Bool.and_true (indexInRange i)]
  exact withReg_outcome fun r hr => .completes _ rfl rfl ⟨r, hr, _, rfl⟩

theorem execStore_outcome (i a : Byte) (s : State) :
    Outcome (Instr.store i a).wellFormed (fun t => ∃ v, t = (s.writeByte a v).advance) s
      (exec (.store i a) s) := by
  rw [Instr.wellFormed, ← Bool.and_true (inDataRegion a)]
  exact withReg_outcome fun r _ => withDataAddr_outcome (.completes _ rfl rfl ⟨_, rfl⟩)

theorem execBeqz_outcome (i f : Byte) (s : State) :
    Outcome (indexInRange i) (fun t => ∃ p, t = s.setPc p) s (exec (.beqz i f) s) := by
  rw [← Bool.and_true (indexInRange i)]
  refine withReg_outcome fun r _ => .completes _ rfl rfl ?_
  split
  · exact ⟨_, rfl⟩
  · exact ⟨_, rfl⟩

theorem registerWriter_outcome {a b : Byte} {i : Instr} (s : State)
    (hi : i ∈ [Instr.load a b, Instr.add a b, Instr.sub a b, Instr.addi a b, Instr.subi a b]) :
    Outcome i.wellFormed (RegWritten a s) s (exec i s) := by
  simp only [List.mem_cons, List.not_mem_nil, or_false] at hi
  rcases hi with rfl | rfl | rfl | rfl | rfl
  · exact execLoad_outcome a b s
  · exact arithRR_outcome add8 a b s
  · exact arithRR_outcome sub8 a b s
  · exact arithRI_outcome add8 a b s
  · exact arithRI_outcome sub8 a b s

theorem control_outcome {a b : Byte} {i : Instr} (s : State)
    (hi : i ∈ [Instr.jump a, Instr.beqz a b, Instr.halt]) :
    Outcome i.wellFormed
      (fun t => (i ≠ .halt ∧ ∃ p, t = s.setPc p) ∨ (i = .halt ∧ t = s.enterHalted)) s (exec i s) := by
  simp only [List.mem_cons, List.not_mem_nil, or_false] at hi
  rcases hi with rfl | rfl | rfl
  · exact .completes _ rfl rfl (.inl ⟨by simp, a, rfl⟩)
  · exact (execBeqz_outcome a b s).mono fun t ht => .inl ⟨by simp, ht⟩
  · exact .completes _ rfl rfl (.inr ⟨rfl, rfl⟩)

/-- Of any instruction: where it is well formed it completes with the status as it was, but for Halt. -/
theorem exec_outcome (i : Instr) (s : State) :
    Outcome i.wellFormed (fun t => s.SameStatus t ∨ i = .halt ∧ t = s.enterHalted) s (exec i s) := by
  cases i with
  | load a b => exact (execLoad_outcome a b s).mono fun t h => .inl h.sameStatus
  | store a b => exact (execStore_outcome a b s).mono fun t ⟨v, ht⟩ => .inl (ht ▸ ⟨rfl, rfl⟩)
  | add a b => exact (arithRR_outcome add8 a b s).mono fun t h => .inl h.sameStatus
  | sub a b => exact (arithRR_outcome sub8 a b s).mono fun t h => .inl h.sameStatus
  | addi a b => exact (arithRI_outcome add8 a b s).mono fun t h => .inl h.sameStatus
  | subi a b => exact (arithRI_outcome sub8 a b s).mono fun t h => .inl h.sameStatus
  | jump a => exact .completes _ rfl rfl (.inl ⟨rfl, rfl⟩)
  | beqz a b => exact (execBeqz_outcome a b s).mono fun t ⟨p, ht⟩ => .inl (ht ▸ ⟨rfl, rfl⟩)
  | halt => exact .completes _ rfl rfl (.inr ⟨rfl, rfl⟩)

theorem exec_next (i : Instr) (s : State) : ∃ t, exec i s = .next t := by
  cases exec_outcome i s with
  | completes _ ho | faults _ _ ho => exact ⟨_, ho⟩

/-- Settles O31, by the instruction's outcome: it takes a fault exactly where a check fails, and no
state it completes in is Faulted. -/
theorem wellFormedIffNoFault : Obligations.WellFormedIffNoFault := by
  intro s i hr
  cases exec_outcome i s with
  | completes t ho hok hq =>
    refine ⟨t, ho, iff_of_true hok ?_, fun _ => ?_⟩
    · rcases hq with ⟨hrun, -⟩ | ⟨-, rfl⟩
      · simp [hrun, hr]
      · simp
    · rcases hq with ⟨-, hfault⟩ | ⟨-, rfl⟩
      · exact hfault
      · rfl
  | faults k d ho hok =>
    exact ⟨_, ho, iff_of_false (by simp [hok]) (by simp), fun h => absurd h (by simp [hok])⟩

/-! ### Frames (40_cycle.md R47) -/

/-- Settles O23: the instruction completes with its one register written, or takes a fault. -/
theorem registerWritersFrame : Obligations.RegisterWritersFrame := by
  intro s t a b i hi h
  cases registerWriter_outcome s hi with
  | completes t' ho hok hq =>
    cases h.symm.trans ho
    obtain ⟨r, rfl, v, rfl⟩ := hq
    obtain ⟨hregs, hmem, hstatus⟩ := Arithmetic.setReg_advance_onlyRegChanged s r v
    exact ⟨fun q hq => hregs q (mt (congrArg Reg.index) hq), hmem, fun _ => hstatus,
      fun hno => by simp [hok] at hno⟩
  | faults k d ho hok =>
    cases h.symm.trans ho
    obtain ⟨-, -, hpc, hregs, hmem⟩ := takeFault_faultedFrom s k d
    exact ⟨fun q _ => hregs q, hmem, fun hyes => by simp [hok] at hyes, fun _ => ⟨hregs, hpc⟩⟩

/-- Settles O24: the Store completes with its one cell written, or takes a fault. -/
theorem storeFrame : Obligations.StoreFrame := by
  intro s t reg addr h
  cases execStore_outcome reg addr s with
  | completes t' ho hok hq =>
    cases h.symm.trans ho
    obtain ⟨v, rfl⟩ := hq
    refine ⟨fun r => ?_, fun a ha => readByte_writeByte_other s v ha, fun _ => ⟨rfl, rfl⟩,
      fun hno => by simp [hok] at hno⟩
    rw [advance_getReg, getReg_writeByte]
  | faults k d ho hok =>
    cases h.symm.trans ho
    obtain ⟨-, -, hpc, hregs, hmem⟩ := takeFault_faultedFrom s k d
    exact ⟨hregs, fun a _ => hmem a, fun hyes => by simp [hok] at hyes, fun _ => ⟨hmem, hpc⟩⟩

/-- Settles O25: a Jump and a Beqz write the pc alone, a Halt the run state alone, and a Beqz that
fails its check takes the fault. -/
theorem controlFrame : Obligations.ControlFrame := by
  intro s t a b i hi h
  cases control_outcome s hi with
  | completes t' ho hok hq =>
    cases h.symm.trans ho
    rcases hq with ⟨-, p, rfl⟩ | ⟨rfl, rfl⟩
    · exact ⟨setPc_getReg s p, setPc_readByte s p, fun _ => ⟨rfl, fun _ => rfl⟩,
        fun hno => by simp [hok] at hno⟩
    · exact ⟨enterHalted_getReg s, enterHalted_readByte s, fun _ => ⟨rfl, fun hno => absurd rfl hno⟩,
        fun hno => by simp [hok] at hno⟩
  | faults k d ho hok =>
    cases h.symm.trans ho
    obtain ⟨-, -, hpc, hregs, hmem⟩ := takeFault_faultedFrom s k d
    exact ⟨hregs, hmem, fun hyes => by simp [hok] at hyes, fun _ => hpc⟩

end Sys2Proof.InstructionEffect

namespace Sys2Proof.StepEffect

open Sys2Proof.Machine

/-! ### What a step can do to memory (20_memory.md R22, R51) -/

/-- A step leaves memory as it is, or is a Store that writes its register's byte to the cell it names,
in the data region. -/
theorem mem_of_step {s t : State} (h : step s = .next t) :
    t.mem = s.mem ∨
      (s.fetch.op.toNat = 2 ∧ s.fetch.b2.toNat ≤ 7 ∧ ∃ v, t.mem = s.mem.write s.fetch.b2 v) := by
  cases step_kind (running_of_step h) h with
  | store r ho _ h2 ht => exact .inr ⟨ho, h2, s.getReg r, by simp [ht]⟩
  | load r _ _ ht | rr r q v _ _ _ ht | ri r v _ _ ht | jump _ ht | taken r _ _ _ ht
  | notTaken r _ _ _ ht | halt _ ht | unrec _ ht | idx1 _ _ ht | idx2 _ _ _ ht | addr r _ _ _ ht =>
    exact .inl (by simp [ht])

theorem sameMem_of_mem_eq {s t : State} (h : t.mem = s.mem) : s.SameMem t :=
  fun a => congrArg (Memory.read · a) h

/-- The instruction region is written by no step. -/
theorem step_readByte_instructionRegion {s t : State} (h : step s = .next t) {a : Byte}
    (ha : 0x08 ≤ a.toNat) : t.readByte a = s.readByte a := by
  rcases mem_of_step h with hmem | ⟨-, hb2, v, hmem⟩
  · exact sameMem_of_mem_eq hmem a
  · have other : a ≠ s.fetch.b2 := by rintro rfl; omega
    rw [State.readByte, hmem, read_write_other _ _ other]
    rfl

/-- A run takes a step and goes on, or stays where there is none (40_cycle.md R49). -/
theorem runFor_succ_cases (n : Nat) (s : State) :
    (∃ t, step s = .next t ∧ runFor (n + 1) s = runFor n t) ∨
      ((∀ t, step s ≠ .next t) ∧ ∀ k, runFor k s = s) := by
  by_cases h : ∃ t, step s = .next t
  · obtain ⟨t, ht⟩ := h
    exact .inl ⟨t, ht, runFor_next ht n⟩
  · have none : ∀ t, step s ≠ .next t := fun t ht => h ⟨t, ht⟩
    exact .inr ⟨none, Exceptions.runFor_of_no_step none⟩

/-- Settles O38, by induction on the fuel: no step writes the instruction region. -/
theorem instructionRegionNeverChanges : Obligations.InstructionRegionNeverChanges := by
  intro s n a ha
  induction n generalizing s with
  | zero => rfl
  | succ n ih =>
    rcases runFor_succ_cases n s with ⟨t, ht, hrun⟩ | ⟨-, hrun⟩
    · rw [hrun, ih t, step_readByte_instructionRegion ht ha]
    · rw [hrun]

/-! ### What a step does to the status: the order of checks (40_cycle.md R48) -/

theorem index_toNat_lt (r : Reg) : r.index.toNat < 2 := by cases r <;> decide

/-- The fault of the first check that three fetched bytes fail, if one does: opcode, index `b1`, index
`b2`, Store's address (R48; D6). -/
def failedCheck (w : InstrBytes) : Option FaultRecord :=
  if ¬(1 ≤ w.op.toNat ∧ w.op.toNat ≤ 8) ∧ w.op.toNat ≠ 0xFF then some ⟨.unrecognizedOpcode, w.op⟩
  else if w.op.toNat ≠ 7 ∧ w.op.toNat ≠ 0xFF ∧ 2 ≤ w.b1.toNat then some ⟨.indexFault, w.b1⟩
  else if (w.op.toNat = 3 ∨ w.op.toNat = 4) ∧ 2 ≤ w.b2.toNat then some ⟨.indexFault, w.b2⟩
  else if w.op.toNat = 2 ∧ 7 < w.b2.toNat then some ⟨.invalidMemoryAccess, w.b2⟩
  else none

/-- The four conditions of `failedCheck`, without their order. -/
theorem failedCheck_ne_none_iff (w : InstrBytes) :
    failedCheck w ≠ none ↔
      (w.op.toNat = 0 ∨ (9 ≤ w.op.toNat ∧ w.op.toNat ≤ 0xFE)) ∨
      (((1 ≤ w.op.toNat ∧ w.op.toNat ≤ 6) ∨ w.op.toNat = 8) ∧ 2 ≤ w.b1.toNat) ∨
      ((w.op.toNat = 3 ∨ w.op.toNat = 4) ∧ 2 ≤ w.b2.toNat) ∨
      (w.op.toNat = 2 ∧ 7 < w.b2.toNat) := by
  have hop := w.op.isLt
  unfold failedCheck
  split_ifs
  iterate 4 exact iff_of_true (Option.some_ne_none _) (by omega)
  exact iff_of_false (not_not.mpr rfl) (by omega)

/-- A step takes the fault of the first failed check; where none fails it keeps the fault record, and
enters Halted or stays Running as the opcode is Halt's or not. -/
theorem status_of_step {s t : State} (h : step s = .next t) :
    (∃ f, failedCheck s.fetch = some f ∧ t = s.takeFault f.kind f.detail) ∨
      (failedCheck s.fetch = none ∧ s.fetch.op.toNat = 255 ∧ t = s.enterHalted) ∨
      (failedCheck s.fetch = none ∧ s.fetch.op.toNat ≠ 255 ∧ s.SameStatus t) := by
  have passes := mt (failedCheck_ne_none_iff s.fetch).mp
  rw [not_ne_iff] at passes
  cases step_kind (running_of_step h) h with
  | unrec ho ht => exact .inl ⟨_, if_pos (by omega), ht⟩
  | idx1 ho h1 ht => exact .inl ⟨_, (if_neg (by omega)).trans (if_pos (by omega)), ht⟩
  | idx2 ho h1 h2 ht =>
    exact .inl ⟨_, (if_neg (by omega)).trans ((if_neg (by omega)).trans (if_pos (by omega))), ht⟩
  | addr r ho h1 h2 ht =>
    have hr := h1 ▸ index_toNat_lt r
    exact .inl ⟨_, (if_neg (by omega)).trans ((if_neg (by omega)).trans
      ((if_neg (by omega)).trans (if_pos (by omega)))), ht⟩
  | halt ho ht => exact .inr (.inl ⟨passes (by omega), ho, ht⟩)
  | rr r q v ho h1 h2 ht =>
    have hr := h1 ▸ index_toNat_lt r
    have hq := h2 ▸ index_toNat_lt q
    exact .inr (.inr ⟨passes (by omega), by omega, by simp [ht, State.SameStatus]⟩)
  | jump ho ht => exact .inr (.inr ⟨passes (by omega), by omega, by simp [ht, State.SameStatus]⟩)
  | load r ho h1 ht | store r ho h1 h2 ht | ri r v ho h1 ht | taken r ho h1 hz ht
  | notTaken r ho h1 hz ht =>
    have hr := h1 ▸ index_toNat_lt r
    exact .inr (.inr ⟨passes (by omega), by omega, by simp [ht, State.SameStatus]⟩)

/-- Settles O29: the statement's chain of checks is `failedCheck`. -/
theorem firstFailingCheckIsRecorded : Obligations.FirstFailingCheckIsRecorded := by
  intro s t _ hf h
  show t.fault = failedCheck s.fetch
  rcases status_of_step h with ⟨f, hc, rfl⟩ | ⟨hc, -, rfl⟩ | ⟨hc, -, -, hfault⟩
  · exact hc.symm
  · rw [enterHalted_fault, hf, hc]
  · rw [hfault, hf, hc]

/-- Settles O30: a step that leads to Faulted took a fault, which is precise. -/
theorem faultsArePrecise : Obligations.FaultsArePrecise := by
  intro s t hr h ht
  rcases status_of_step h with ⟨f, -, rfl⟩ | ⟨-, -, rfl⟩ | ⟨-, -, hrun, -⟩
  · exact ⟨f, takeFault_faultedFrom s f.kind f.detail⟩
  · cases ht
  · cases (hrun.trans hr).symm.trans ht

/-- The run state after a step: Halted exactly on Halt's opcode, Faulted exactly on a failed check. -/
theorem runState_of_step {s t : State} (h : step s = .next t) :
    (t.runState = .halted ↔ s.fetch.op = 0xFF#8) ∧
      (t.runState = .faulted ↔ failedCheck s.fetch ≠ none) := by
  have hr := running_of_step h
  have isHalt : s.fetch.op = 0xFF#8 ↔ s.fetch.op.toNat = 255 := BitVec.toNat_inj.symm
  rw [isHalt]
  rcases status_of_step h with ⟨f, hc, rfl⟩ | ⟨hc, ho, rfl⟩ | ⟨hc, ho, hrun, -⟩
  · have failed : failedCheck s.fetch ≠ none := by simp [hc]
    have := (failedCheck_ne_none_iff s.fetch).mp failed
    exact ⟨iff_of_false (by simp) (by omega), iff_of_true rfl failed⟩
  · exact ⟨iff_of_true rfl ho, iff_of_false (by simp) (by simp [hc])⟩
  · exact ⟨iff_of_false (by simp [hrun, hr]) ho, iff_of_false (by simp [hrun, hr]) (by simp [hc])⟩

/-- Settles O32: the run state after a step, with the failed checks written out. -/
theorem runStateTransitions : Obligations.RunStateTransitions := by
  refine ⟨fun s t _ h => ?_, fun s t he => Exceptions.step_ne_next_of_ended he t⟩
  obtain ⟨halted, faulted⟩ := runState_of_step h
  exact ⟨halted, faulted.trans (failedCheck_ne_none_iff s.fetch)⟩

/-! ### The invariant (10_state.md R16) -/

theorem mem_wf_of_step {s t : State} (hm : s.mem.wf) (h : step s = .next t) : t.mem.wf := by
  rcases mem_of_step h with hmem | ⟨-, -, v, hmem⟩
  · rwa [hmem]
  · rw [hmem]
    exact write_wf _ v hm

/-- Settles O39: memory is kept or written once, and a fault record is written exactly with the run
state Faulted, from a Running state whose record is empty. -/
theorem stepKeepsInvariant : Obligations.StepKeepsInvariant := by
  rintro s t ⟨hm, hstatus⟩ h
  have hr := running_of_step h
  refine ⟨mem_wf_of_step hm h, ?_⟩
  rcases status_of_step h with ⟨f, -, rfl⟩ | ⟨-, -, rfl⟩ | ⟨-, -, hrun, hfault⟩
  · exact iff_of_true rfl rfl
  · refine iff_of_false ?_ (by simp)
    simp [hstatus, hr]
  · rwa [hrun, hfault]

/-! ### What a step writes (40_cycle.md R47) -/

/-- A write to one register leaves the other. -/
theorem setReg_x0_or_x1 (s : State) (r : Reg) (v : Byte) :
    (s.setReg r v).x0 = s.x0 ∨ (s.setReg r v).x1 = s.x1 := by
  cases r with
  | x0 => exact .inr rfl
  | x1 => exact .inl rfl

/-- A step changes at most one register, and a Store changes none. -/
theorem regs_of_step {s t : State} (h : step s = .next t) :
    (t.x0 = s.x0 ∨ t.x1 = s.x1) ∧ (s.fetch.op.toNat = 2 → s.SameRegs t) := by
  cases step_kind (running_of_step h) h with
  | load r ho _ ht | rr r q v ho _ _ ht | ri r v ho _ ht =>
    exact ⟨ht ▸ setReg_x0_or_x1 s r _, fun _ => by omega⟩
  | store r _ _ _ ht | jump _ ht | taken r _ _ _ ht | notTaken r _ _ _ ht | halt _ ht | unrec _ ht
  | idx1 _ _ ht | idx2 _ _ _ ht | addr r _ _ _ ht =>
    exact ⟨.inl (by simp [ht]), fun _ q => by simp [ht]⟩

/-- Settles O10: memory is kept but for a Store's one cell, and a Store keeps the registers, of which
any other step changes at most one. -/
theorem stepWritesAtMostOneCellOrRegister : Obligations.StepWritesAtMostOneCellOrRegister := by
  intro s t h
  obtain ⟨oneReg, storeRegs⟩ := regs_of_step h
  have isStore : s.fetch.op = 0x02#8 ↔ s.fetch.op.toNat = 2 := BitVec.toNat_inj.symm
  rw [ne_eq, isStore]
  rcases mem_of_step h with hmem | ⟨ho, -, v, hmem⟩
  · exact ⟨fun ho => ⟨storeRegs ho, fun a _ => sameMem_of_mem_eq hmem a⟩,
      fun _ => ⟨sameMem_of_mem_eq hmem, oneReg⟩⟩
  · refine ⟨fun ho => ⟨storeRegs ho, fun a ha => ?_⟩, fun hno => absurd ho hno⟩
    rw [State.readByte, hmem, read_write_other _ _ ha]
    rfl

/-! ### When a step exists (40_cycle.md R42) -/

theorem step_next_of_running {s : State} (hr : s.runState = .running) : ∃ t, step s = .next t := by
  rw [step_running hr, runFetched]
  split
  · exact InstructionEffect.exec_next _ s
  · exact ⟨_, rfl⟩

/-- Settles O8: the three run states, each with what `step` answers in it. -/
theorem stepExistsIffRunning : Obligations.StepExistsIffRunning := by
  intro s
  cases hr : s.runState with
  | running =>
    obtain ⟨t, ht⟩ := step_next_of_running hr
    simp [ht]
  | halted => simp [step, stepOnce, hr]
  | faulted => simp [step, stepOnce, hr]

/-! ### Where the pc goes (40_cycle.md R46, 10_state.md R13) -/

theorem index_injective {r q : Reg} (h : r.index = q.index) : r = q :=
  Option.some.inj ((regOfIndex_index r).symm.trans (h ▸ regOfIndex_index q))

/-- The fetched instruction is a Beqz on a register that holds zero (43_control_transfer.md R58). -/
def BranchTaken (s : State) : Prop :=
  s.fetch.op = 0x08#8 ∧ ∃ r : Reg, s.fetch.b1 = r.index ∧ s.getReg r = 0x00#8

theorem not_branchTaken_of_opcode {s : State} (h : s.fetch.op.toNat ≠ 8) : ¬ BranchTaken s :=
  fun hb => h (congrArg BitVec.toNat hb.1)

/-- A step that is no Jump and stays in state Running goes on after the instruction, by way of the
offset where a branch is taken. -/
theorem pc_of_step_running {s t : State} (h : step s = .next t) (ht : t.runState = .running)
    (hj : s.fetch.op ≠ 0x07#8) :
    (BranchTaken s ∧ t.pc = add8 (add8 s.pc s.fetch.b2) Config.ilen) ∨
      (¬ BranchTaken s ∧ t.pc = add8 s.pc Config.ilen) := by
  cases step_kind (running_of_step h) h with
  | load r ho _ ht | store r ho _ _ ht | rr r q v ho _ _ ht | ri r v ho _ ht =>
    exact .inr ⟨not_branchTaken_of_opcode (by omega), by simp [ht]⟩
  | jump ho => exact absurd (BitVec.eq_of_toNat_eq ho) hj
  | taken r ho h1 hz ht => exact .inl ⟨⟨BitVec.eq_of_toNat_eq ho, r, h1, hz⟩, by simp [ht]⟩
  | notTaken r ho h1 hz ht =>
    refine .inr ⟨?_, by simp [ht]⟩
    rintro ⟨-, q, hq, hqz⟩
    obtain rfl := index_injective (h1.symm.trans hq)
    exact hz hqz
  | halt _ h' | unrec _ h' | idx1 _ _ h' | idx2 _ _ _ h' | addr r _ _ _ h' =>
    rw [h'] at ht
    cases ht

/-- A step that ends the run leaves the pc (D9, D10). -/
theorem pc_of_step_ended {s t : State} (h : step s = .next t) (ht : t.Ended) : t.pc = s.pc := by
  rcases status_of_step h with ⟨f, -, rfl⟩ | ⟨-, -, rfl⟩ | ⟨-, -, hrun, -⟩
  · rfl
  · rfl
  · have := hrun.trans (running_of_step h)
    rcases ht with ht | ht <;> cases this.symm.trans ht

theorem add8_add8_ilen_toNat (p f : Byte) :
    (add8 (add8 p f) Config.ilen).toNat = (p.toNat + f.toNat + 3) % 256 := by
  rw [add8_toNat, add8_toNat, Nat.mod_add_mod]
  rfl

/-- Settles O9: a Jump writes its address, an ended run stays, and any other step goes on after the
instruction or the branch. -/
theorem pcAfterStep : Obligations.PcAfterStep := by
  intro s t hr h
  refine ⟨fun hj => ?jump, pc_of_step_ended h, fun ht hj => ?runs⟩
  case jump =>
    cases h.symm.trans (ControlTransfer.step_jump hr hj)
    rfl
  case runs =>
    rcases pc_of_step_running h ht hj with ⟨hb, hpc⟩ | ⟨hb, hpc⟩
    · exact ⟨fun _ => hpc ▸ add8_add8_ilen_toNat s.pc s.fetch.b2, fun hno => absurd hb hno⟩
    · exact ⟨fun hyes => absurd hyes hb, fun _ => hpc ▸ add8_toNat s.pc Config.ilen⟩

end Sys2Proof.StepEffect

namespace Sys2Proof.InstructionResults

open Sys2Proof.Machine

/-! ### The register writers at valid indices (R50, R53 to R56) -/

/-- A meaning that writes `v` to register `r` and advances completes with that alone. -/
theorem exists_next_regWritten {o : Result} {s : State} {r : Reg} {v : Byte}
    (h : o = .next (s.setReg r v).advance) :
    ∃ t, o = .next t ∧ t.getReg r = v ∧ s.Advanced t ∧ s.OnlyRegChanged r t := by
  refine ⟨_, h, ?_, ?_, Arithmetic.setReg_advance_onlyRegChanged s r v⟩
  · rw [advance_getReg, getReg_setReg_same]
  · rw [State.Advanced, ← setReg_pc s r v]
    exact advance_advanced _

theorem execLoad_index (r : Reg) (addr : Byte) (s : State) :
    exec (.load r.index addr) s = .next (s.setReg r (s.readByte addr)).advance :=
  withReg_index r s _

/-- Settles O13: the Load is a register write of the cell and the epilogue. -/
theorem loadCopiesCellToRegister : Obligations.LoadCopiesCellToRegister :=
  fun s r addr => exists_next_regWritten (execLoad_index r addr s)

/-- Settles O15: the sum is `add8`'s. -/
theorem addAddsRegisters : Obligations.AddAddsRegisters := by
  intro s r q
  obtain ⟨t, h, hv, hpc, hframe⟩ := exists_next_regWritten (Arithmetic.arithRR_index add8 r q s)
  exact ⟨t, h, hv ▸ add8_toNat _ _, hpc, hframe⟩

/-- Settles O16: the difference is `sub8`'s. -/
theorem subSubtractsRegisters : Obligations.SubSubtractsRegisters := by
  intro s r q
  obtain ⟨t, h, hv, hpc, hframe⟩ := exists_next_regWritten (Arithmetic.arithRR_index sub8 r q s)
  exact ⟨t, h, hv ▸ Arithmetic.sub8_toNat_int _ _, hpc, hframe⟩

/-- Settles O17: the sum is `add8`'s. -/
theorem addiAddsLiteral : Obligations.AddiAddsLiteral := by
  intro s r imm
  obtain ⟨t, h, hv, hpc, hframe⟩ := exists_next_regWritten (Arithmetic.arithRI_index add8 r imm s)
  exact ⟨t, h, hv ▸ add8_toNat _ _, hpc, hframe⟩

/-- Settles O18: the difference is `sub8`'s. -/
theorem subiSubtractsLiteral : Obligations.SubiSubtractsLiteral := by
  intro s r imm
  obtain ⟨t, h, hv, hpc, hframe⟩ := exists_next_regWritten (Arithmetic.arithRI_index sub8 r imm s)
  exact ⟨t, h, hv ▸ Arithmetic.sub8_toNat_int _ _, hpc, hframe⟩

/-! ### Store at a valid index (R51, R30) -/

theorem execStore_index (r : Reg) (addr : Byte) (s : State) :
    exec (.store r.index addr) s =
      withDataAddr addr s (.next (s.writeByte addr (s.getReg r)).advance) :=
  withReg_index r s _

theorem execStore_inDataRegion (r : Reg) {addr : Byte} (h : addr.toNat ≤ 7) (s : State) :
    exec (.store r.index addr) s = .next (s.writeByte addr (s.getReg r)).advance := by
  rw [execStore_index]
  exact if_pos (decide_eq_true h)

theorem execStore_aboveDataRegion (r : Reg) {addr : Byte} (h : 7 < addr.toNat) (s : State) :
    exec (.store r.index addr) s = .next (s.takeFault .invalidMemoryAccess addr) := by
  rw [execStore_index]
  exact if_neg (mt of_decide_eq_true (Nat.not_le.mpr h))

/-- Settles O14: the Store is a cell write and the epilogue. -/
theorem storeCopiesRegisterToCell : Obligations.StoreCopiesRegisterToCell := by
  intro s r addr hm ha
  refine ⟨_, execStore_inDataRegion r ha s, ?same, fun a hne => ?other, advance_advanced _,
    fun q => ?regs, rfl, rfl⟩
  case same => rw [advance_readByte, readByte_writeByte_same _ _ hm]
  case other => rw [advance_readByte, readByte_writeByte_other _ _ hne]
  case regs => rw [advance_getReg, getReg_writeByte]

/-- Settles O28: the address check fails after the index check has passed. -/
theorem storeAboveDataRegionFaults : Obligations.StoreAboveDataRegionFaults :=
  fun s r _ h => ⟨_, execStore_aboveDataRegion r h s, takeFault_faultedFrom s _ _⟩

/-- Settles O37: the fetch reads the memory the Store wrote, byte by byte by the read-after-write
law. -/
theorem storeVisibleToNextFetch : Obligations.StoreVisibleToNextFetch := by
  intro s t r addr hm ha h
  cases h.symm.trans (execStore_inDataRegion r ha s)
  have cell : ∀ b, (s.writeByte addr (s.getReg r)).advance.readByte b =
      if b = addr then s.getReg r else s.readByte b :=
    fun b => MemoryCells.readByte_writeByte addr (s.getReg r) b hm
  exact ⟨cell _, cell _, cell _⟩

/-! ### Control transfer and Halt (R58, R60) -/

theorem execBeqz_index (r : Reg) (offset : Byte) (s : State) :
    exec (.beqz r.index offset) s =
      .next (if isZero (s.getReg r) then s.setPc (add8 s.pc offset) else s).advance :=
  withReg_index r s _

theorem execBeqz_taken {s : State} {r : Reg} (hz : s.getReg r = 0x00#8) (offset : Byte) :
    exec (.beqz r.index offset) s = .next (s.setPc (add8 (add8 s.pc offset) Config.ilen)) := by
  have zero : isZero (s.getReg r) = true := decide_eq_true hz
  rw [execBeqz_index, if_pos zero]
  rfl

theorem execBeqz_notTaken {s : State} {r : Reg} (hz : s.getReg r ≠ 0x00#8) (offset : Byte) :
    exec (.beqz r.index offset) s = .next s.advance := by
  have nonzero : ¬ isZero (s.getReg r) = true := mt of_decide_eq_true hz
  rw [execBeqz_index, if_neg nonzero]

/-- Settles O20: taken or not, the Beqz writes the pc alone. -/
theorem beqzLandsAtOffsetPlusThree : Obligations.BeqzLandsAtOffsetPlusThree := by
  intro s r offset
  by_cases hz : s.getReg r = 0x00#8
  · exact ⟨_, execBeqz_taken hz offset, fun _ => StepEffect.add8_add8_ilen_toNat s.pc offset,
      fun hno => absurd hz hno, ControlTransfer.setPc_frame s _⟩
  · exact ⟨_, execBeqz_notTaken hz offset, fun hyes => absurd hyes hz, fun _ => advance_advanced s,
      ControlTransfer.setPc_frame s _⟩

/-- The offset 0xFD undoes the epilogue's three. -/
theorem add8_FD_ilen (p : Byte) : add8 (add8 p 0xFD#8) Config.ilen = p := by
  simp only [add8, Config.ilen]
  bv_omega

theorem step_beqz_self {s : State} {r : Reg} (hr : s.runState = .running)
    (hf : s.fetch = ⟨0x08#8, r.index, 0xFD#8⟩) (hz : s.getReg r = 0x00#8) : step s = .next s := by
  have hd : decode s.fetch.op s.fetch.b1 s.fetch.b2 = .instr (.beqz r.index 0xFD#8) := by
    rw [hf]
    rfl
  rw [step_running hr, runFetched_instr hd, execBeqz_taken hz, add8_FD_ilen,
    ControlTransfer.setPc_self]

/-- Settles O22: the step writes to the pc the value it holds, and any fuel repeats it. -/
theorem beqzToItselfRunsForever : Obligations.BeqzToItselfRunsForever := by
  intro s r n hr hf hz
  have hs : step s = .next s := step_beqz_self hr hf hz
  have hrun : runFor n s = s := ControlTransfer.runFor_of_step_self hs n
  exact ⟨hs, hrun, by rw [hrun, hs]⟩

/-- Settles O21: Halt is the entry into Halted, with that operation's frame. -/
theorem haltEndsRun : Obligations.HaltEndsRun :=
  ⟨fun _ _ => rfl, fun s => ⟨s.enterHalted, execHalt_eq s, enterHalted_runState s, enterHalted_pc s,
    enterHalted_fault s, enterHalted_getReg s, enterHalted_readByte s⟩⟩

/-! ### Invalid register indices (R65) -/

/-- An operand form whose first check is a register index takes the index fault of an invalid one. -/
theorem withReg_indexFault {x : Byte} (hx : 2 ≤ x.toNat) (s : State) (k : Reg → Result) :
    ∃ t, withReg x s k = .next t ∧ s.FaultedFrom t .indexFault x :=
  ⟨_, withReg_invalid hx s k, takeFault_faultedFrom s _ _⟩

theorem withRegs_second_indexFault {x : Byte} (hx : 2 ≤ x.toNat) (r : Reg) (s : State)
    (k : Reg → Reg → Result) :
    ∃ t, withRegs r.index x s k = .next t ∧ s.FaultedFrom t .indexFault x := by
  rw [withRegs, withReg_index]
  exact withReg_indexFault hx s _

/-- Settles O27: each meaning with a register operand begins with its index check, Add's and Sub's
second after their first. -/
theorem invalidRegisterIndexFaults : Obligations.InvalidRegisterIndexFaults := by
  intro s x b hx
  simp only [List.forall_mem_cons, List.not_mem_nil, false_implies, implies_true, and_true]
  refine ⟨⟨?_, ?_, ?_, ?_, ?_, ?_, ?_⟩, fun r => ⟨?_, ?_⟩⟩
  iterate 7 exact withReg_indexFault hx s _
  iterate 2 exact withRegs_second_indexFault hx r s _

end Sys2Proof.InstructionResults

namespace Sys2Proof.RunAndHost

open Sys2Proof.Machine

/-! ### The loop (40_cycle.md R49) -/

theorem runFor_add (s : State) (m n : Nat) : runFor (m + n) s = runFor n (runFor m s) := by
  induction m generalizing s with
  | zero => rw [Nat.zero_add, runFor_zero]
  | succ m ih =>
    rcases StepEffect.runFor_succ_cases m s with ⟨t, ht, hrun⟩ | ⟨-, hstay⟩
    · rw [hrun, Nat.succ_add, runFor_next ht, ih]
    · rw [hstay, hstay, hstay]

/-- Settles O43: the loop's equations, and the composition of runs, by induction on the first fuel. -/
theorem runsComposeAndStayEnded : Obligations.RunsComposeAndStayEnded := by
  refine ⟨runFor_zero, fun s t n h => runFor_next h n, fun s n h => Exceptions.runFor_of_no_step h n,
    fun s m n => ⟨runFor_add s m n, fun he => ?_⟩⟩
  rw [runFor_add]
  exact Exceptions.runFor_of_no_step (Exceptions.step_ne_next_of_ended he) n

/-! ### Reset and the host's load (70_reset_and_hazards.md R73, R75, R79) -/

/-- Settles O41: each field is the one `applyReset` writes, and memory the one it keeps. -/
theorem resetLeavesStatedValues : Obligations.ResetLeavesStatedValues := by
  refine fun s => ⟨rfl, rfl, rfl, rfl, rfl, ResetAndHost.applyReset_readByte s, fun hmem => ?_⟩
  rw [State.applyReset, hmem, State.reset]

theorem writeAll_append (ws ws' : List (Byte × Byte)) (m : Memory) :
    writeAll (ws ++ ws') m = writeAll ws' (writeAll ws m) := by
  induction ws generalizing m with
  | nil => rfl
  | cons w ws ih => exact ih (m.write w.1 w.2)

/-- Before the first reset the host's writes and its reset are allowed, and lead to `hostBoot`. -/
theorem moves_hostLoad (s : State) (ws : List (Byte × Byte)) :
    (Block.powerUp s).moves (ws.map (fun w => .write w.1 w.2) ++ [.reset]) =
      some ⟨hostBoot s.mem ws, true⟩ := by
  induction ws generalizing s with
  | nil => rfl
  | cons w ws ih => exact ih (s.writeByte w.1 w.2)

/-- Settles O44: the moves by induction on the writes, and the contents by the read-after-write law
for the last of them. -/
theorem hostLoadPlacesImage : Obligations.HostLoadPlacesImage := by
  refine ⟨moves_hostLoad, fun m ws a v hm => ?_⟩
  have last : (hostBoot m (ws ++ [(a, v)])).mem = (writeAll ws m).write a v := writeAll_append ws _ m
  refine ⟨?written, fun b hb => ?others, rfl, rfl, rfl, rfl, rfl, rfl⟩
  case written => rw [State.readByte, last, read_write_same a v (writeAll_wf ws m hm)]
  case others =>
    rw [State.readByte, last, read_write_other _ v hb]
    rfl

/-! ### The invariant on the block -/

/-- A Running state with an empty fault record meets the invariant when its memory does. -/
theorem inv_of_running {s : State} (hm : s.mem.wf) (hr : s.runState = .running) (hf : s.fault = none) :
    s.Inv :=
  ⟨hm, by simp [hr, hf]⟩

/-- Settles O40: reset empties the fault record, a host write keeps the status and the canonical form,
and a core move is a step. -/
theorem resetAndHostKeepInvariant : Obligations.ResetAndHostKeepInvariant := by
  refine ⟨inv_of_running reset_mem_wf rfl rfl,
    fun m ws hm => inv_of_running (writeAll_wf ws m hm) rfl rfl, fun b c mv ⟨hm, hstatus⟩ h => ?_⟩
  rcases move_cases h with ⟨a, v, -, -, rfl⟩ | ⟨-, -, rfl⟩ | ⟨-, -, -, hstep⟩
  · exact ⟨write_wf a v hm, hstatus⟩
  · exact inv_of_running hm rfl rfl
  · exact StepEffect.stepKeepsInvariant b.core c.core ⟨hm, hstatus⟩ hstep

/-! ### What the host may do and see (R79) -/

/-- Where the host may act, its three moves are as the spec says. -/
theorem host_of_mayAct {b : Block} (h : hostMayAct b = true) (a v : Byte) :
    hostWrite a v b = some ⟨b.core.writeByte a v, b.wasReset⟩ ∧
      hostRead a b = some (b.core.readByte a) ∧ hostReset b = some ⟨b.core.applyReset, true⟩ := by
  simp [hostWrite, hostRead, hostReset, h]

/-- Where it may not, none of them is allowed. -/
theorem host_of_not_mayAct {b : Block} (h : hostMayAct b = false) (a v : Byte) :
    hostWrite a v b = none ∧ hostRead a b = none ∧ hostReset b = none := by
  simp [hostWrite, hostRead, hostReset, h]

/-- After a reset the core's move is the machine's step. -/
theorem coreStep_eq_some_iff (s t : State) :
    coreStep ⟨s, true⟩ = some ⟨t, true⟩ ↔ step s = .next t := by
  unfold coreStep
  rw [if_pos rfl]
  cases hs : step s with
  | next u => simp
  | fault r => simp
  | refused r => simp

theorem coreStep_of_ended {s : State} (he : s.Ended) : coreStep ⟨s, true⟩ = none := by
  unfold coreStep
  rw [if_pos rfl]
  split
  · next t ht => exact absurd ht (Exceptions.step_ne_next_of_ended he t)
  · rfl
  · rfl

/-- Settles O45: what is allowed by `hostMayAct`, what the host reads by the run state. -/
theorem hostActsOnlyOutsideRuns : Obligations.HostActsOnlyOutsideRuns := by
  refine fun s a v => ⟨fun hr => host_of_not_mayAct (hostMayAct_running hr) a v, ?outside,
    coreStep_eq_some_iff s, fun w => ?readings⟩
  case outside =>
    rintro b (rfl | ⟨rfl, he⟩)
    · obtain ⟨hwrite, hread, hreset⟩ := host_of_mayAct (hostMayAct_powerUp s) a v
      exact ⟨hwrite, hread, hreset, rfl⟩
    · obtain ⟨hwrite, hread, hreset⟩ := host_of_mayAct (hostMayAct_ended true he) a v
      exact ⟨hwrite, hread, hreset, coreStep_of_ended he⟩
  case readings =>
    refine ⟨fun hr => ?_, fun hr => ?_, fun hr => ?_⟩
    · simp [hostRunState, hostFault, RunState.code, hr]
    · simp [hostRunState, hostFault, RunState.code, hr]
    · simp +contextual [hostRunState, hostFault, RunState.code, FaultKind.code, hr]

end Sys2Proof.RunAndHost
